-- ==== Sys2Proof/Word.lean ====
section
/-! DEFINITION. The widths the block handles: bytes, command words and message indices
(00_scope.md R11, R12; 30_encoding.md R71). -/

namespace Sys2Proof

/-- An unsigned 8-bit value: a wire byte, the length prefix, the type tag, KEY (R11, R12). -/
abbrev Byte := BitVec 8

/-- A 16-bit command word, opcode in bits 15..8 and imm8 in bits 7..0 (R71). -/
abbrev CmdWord := BitVec 16

/-- A message index, an unsigned 32-bit value (R11, R27). -/
abbrev Index := BitVec 32

end Sys2Proof
end

