-- ==== Sys2Proof/Config.lean ====
section
/-! DEFINITION. The parameters an instance of the block is built with (00_scope.md R8 to R10).
They are constants of the instance: no operation writes them (10_state.md R25). The spec leaves
their values open (92_eei_decisions.md D3, D25), so the machine takes them as data that every
statement quantifies over. The spec gives no operation an undefined value, so there is no free value. -/

namespace Sys2Proof

/-- VARIANT, the wire format (R8). -/
inductive Variant where
  | typeTagged
  | indexOnly
  deriving DecidableEq, Repr

/-- ADAPTER, the payload transform (R9). -/
inductive Adapter where
  | identity
  | additiveShift
  deriving DecidableEq, Repr

/-- The parameters of one instance (R8 to R10). `key` is read only when `adapter` is
`additiveShift`, `knownTypes` only when `variant` is `typeTagged`; of `knownTypes` only membership
is ever read. -/
structure Config where
  variant    : Variant
  adapter    : Adapter
  key        : Byte
  knownTypes : List Byte
  deriving DecidableEq, Repr

/-- The configuration of the spec's test vectors (95_test_vectors.md; R10, R65): TypeTagged,
Identity, the codes NONE, COMMAND, RESPONSE, DATA, HEARTBEAT and ERROR. DESIGN CHOICE (log entry 2):
the value of KEY, which Identity does not read, and that `State.reset` carries this configuration.
unsafe for a claim about the reset state that uses it. -/
def Config.default : Config where
  variant    := .typeTagged
  adapter    := .identity
  key        := 0x00
  knownTypes := [0x00, 0x01, 0x02, 0x03, 0x04, 0x05]

end Sys2Proof
end

