-- ==== Sys2Proof/Syntax.lean ====
section
/-! DEFINITION. The four operations of the block and the message record they move
(00_scope.md R3; 10_state.md R27; 30_encoding.md R72, R73). -/

namespace Sys2Proof

/-- A message `{index, type, payload}` (R27); `type` is `none` when the message has no type. -/
structure Message where
  index   : Index
  type    : Option Byte
  payload : List Byte
  deriving DecidableEq, Repr

/-- One constructor per row of the opcode map (R72). FEED takes its byte from the command word;
ENCODE takes its message and DECODE its bytes from the operand ports (R71, R73). -/
inductive Instr where
  | feed (b : Byte)
  | reset
  | encode
  | decode
  deriving DecidableEq, Repr

/-- The mnemonic of an operation, as the opcode map spells it (R72). -/
def Instr.mnemonic : Instr → String
  | .feed _ => "FEED"
  | .reset  => "RESET"
  | .encode => "ENCODE"
  | .decode => "DECODE"

end Sys2Proof
end

