-- ==== Sys2Proof/Machine/Params.lean ====
section
/-! DEFINITION. What follows from the parameters: the header size, the derived limits, the type codes
and their coercion (00_scope.md R8, R11; 10_state.md R28; 30_encoding.md R64 to R66). -/

namespace Sys2Proof

/-- H, the header size: the type byte (TypeTagged only) and four index bytes, without the length
prefix (R8; 90_conflicts.md C2). -/
def Config.headerSize (c : Config) : Nat :=
  match c.variant with
  | .typeTagged => 5
  | .indexOnly  => 4

/-- MAX_FRAME_LENGTH, the largest value of the length prefix (R11). -/
def maxFrameLength : Nat := 255

/-- BUF_DEPTH, the most bytes the receiver ever holds, and the longest frame (R11, R22). -/
def bufDepth : Nat := 256

/-- MAX_PAYLOAD = 255 - H (R11; 90_conflicts.md C3). -/
def Config.maxPayload (c : Config) : Nat := maxFrameLength - c.headerSize

/-- The index offset o = H - 3, the frame position of the most significant index byte (R64). -/
def Config.indexOffset (c : Config) : Nat := c.headerSize - 3

/-- UNDEFINED, the sentinel type code (R28, R65). -/
def typeUndefined : Byte := 0xFF

/-- `t ∈ KNOWN_TYPES` (R10). -/
def Config.isKnown (c : Config) (t : Byte) : Bool := c.knownTypes.contains t

/-- `t` is a type code: a known type, or UNDEFINED (R28). -/
def Config.isTypeCode (c : Config) (t : Byte) : Bool := c.isKnown t || t == typeUndefined

/-- `coerce(t)`: a known type is kept, every other byte becomes UNDEFINED (R66). -/
def Config.coerce (c : Config) (t : Byte) : Byte := if c.isKnown t then t else typeUndefined

end Sys2Proof
end

