-- ==== Sys2Proof/WellFormed.lean ====
section
/-! DEFINITION. What is well formed: a configuration (00_scope.md R10), a message (10_state.md R27, R28),
a block of bytes on the DECODE port (30_encoding.md R73), an operation (30_encoding.md R72). -/

namespace Sys2Proof

/-- The constraints on KNOWN_TYPES: NONE and COMMAND are in it, UNDEFINED is not (R10). -/
def Config.wf (c : Config) : Bool :=
  c.isKnown 0x00 && c.isKnown 0x01 && !c.isKnown typeUndefined

/-- The type is present exactly when VARIANT = TypeTagged, and a present type is a type code
(R27, R28, R100). -/
def Message.typeOk (c : Config) (m : Message) : Bool :=
  match c.variant, m.type with
  | .typeTagged, some t => c.isTypeCode t
  | .indexOnly,  none   => true
  | _,           _      => false

/-- A well-formed message: its type is well formed and its payload fits (R27). -/
def Message.wf (c : Config) (m : Message) : Bool :=
  m.typeOk c && decide (m.payload.length ≤ c.maxPayload)

/-- A block that the DECODE port can carry: at most 256 bytes (R73; D10). -/
def blockOk (f : List Byte) : Bool := decide (f.length ≤ bufDepth)

/-- Every operation is well formed: FEED takes any byte, and the other three carry no field,
their imm8 being 0x00 by R72. A word with another imm8 is no operation, and `decode` rejects it. -/
def Instr.wf : Instr → Bool
  | .feed _ => true
  | .reset  => true
  | .encode => true
  | .decode => true

end Sys2Proof
end

