-- ==== Sys2Proof/Decode.lean ====
section
/-! DEFINITION. The command word: the opcode map, the decoder, which is total on 16-bit words and rejects
by name, and the encoder (30_encoding.md R71, R72, R74). -/

namespace Sys2Proof

/-- Why a word is no operation (R74). -/
inductive DecodeError where
  /-- The opcode is 0x00 or 0x05 to 0xFF. -/
  | reservedOpcode (w : CmdWord)
  /-- RESET, ENCODE or DECODE with an imm8 that is not 0x00. -/
  | reservedImmediate (w : CmdWord)
  deriving DecidableEq, Repr

/-- A row of the opcode map: a word `w` is the row's when `w &&& mask = value`; `sample` is the row's
operation with every operand bit zero (R72). -/
structure OpcodeRow where
  mask   : CmdWord
  value  : CmdWord
  sample : Instr
  deriving DecidableEq, Repr

/-- The opcode map, in the spec's order (R72). -/
def opcodeMap : List OpcodeRow :=
  [ { mask := 0xFF00, value := 0x0100, sample := .feed 0x00 },
    { mask := 0xFFFF, value := 0x0200, sample := .reset },
    { mask := 0xFFFF, value := 0x0300, sample := .encode },
    { mask := 0xFFFF, value := 0x0400, sample := .decode } ]

/-- Whether a word is a row's (R72). -/
def OpcodeRow.covers (r : OpcodeRow) (w : CmdWord) : Bool := w &&& r.mask == r.value

/-- `cmd[15:8]` (R71). -/
def opcodeField (w : CmdWord) : Byte := w.extractLsb' 8 8

/-- `cmd[7:0]`, imm8 (R71). -/
def imm8Field (w : CmdWord) : Byte := w.extractLsb' 0 8

/-- An operation with its operand field filled in: only FEED has one (R71). -/
def Instr.withImm8 (imm8 : Byte) : Instr → Instr
  | .feed _ => .feed imm8
  | .reset  => .reset
  | .encode => .encode
  | .decode => .decode

/-- The name of the rejection of a word that no row covers (R74). -/
def reservedWord (w : CmdWord) : DecodeError :=
  if 0x02 ≤ (opcodeField w).toNat ∧ (opcodeField w).toNat ≤ 0x04 then .reservedImmediate w
  else .reservedOpcode w

/-- The decoder: the row that covers the word, with its operand field, or a rejection by name
(R72, R74). -/
def decode (w : CmdWord) : Except DecodeError Instr :=
  match opcodeMap.find? (fun r => r.covers w) with
  | some r => .ok (r.sample.withImm8 (imm8Field w))
  | none   => .error (reservedWord w)

/-- The encoder: opcode and imm8 of each operation (R71, R72). -/
def encode : Instr → CmdWord
  | .feed b => (0x01 : Byte) ++ b
  | .reset  => 0x0200
  | .encode => 0x0300
  | .decode => 0x0400

/-- The command word the opcode table's numbering names: bits above `nbits` are zero, and a word of
more than 16 significant bits is no command word. The spec stores command words nowhere, so there is no
byte order to lay out (R40, R71). DESIGN CHOICE (log entry 12), safe. -/
def tableWord (nbits w : Nat) : Option CmdWord :=
  if w % 2 ^ nbits < 2 ^ 16 then some (BitVec.ofNat 16 (w % 2 ^ nbits)) else none

/-- The operation the decoder reads from the table's bits. -/
def decodeTableWord (nbits w : Nat) : Option Instr :=
  match tableWord nbits w with
  | some cmd => (decode cmd).toOption
  | none     => none

end Sys2Proof
end

