-- ==== Sys2Proof/Machine/State.lean ====
section
/-! DEFINITION. The state: the receiver's three registers (10_state.md R20 to R23), the constants of the
instance (R25), the operand ports (30_encoding.md R73), the result of the last operation
(00_scope.md R15) and the operations the environment will issue (10_state.md R26). -/

namespace Sys2Proof.Machine

/-- `rx.state` (R21). -/
inductive RxState where
  | awaitingLength
  | accumulating
  deriving DecidableEq, Repr

/-- The receiver (R20 to R23). `acc` is the accumulated buffer: its length is the 9-bit count, and a
cell at or past the count does not exist. -/
structure Receiver where
  state          : RxState
  acc            : List Byte
  expectedLength : Byte
  deriving DecidableEq, Repr

/-- A freshly made receiver, which is also the receiver after RESET and after every completed frame
(R31, R230). -/
def Receiver.fresh : Receiver where
  state          := .awaitingLength
  acc            := []
  expectedLength := 0

/-- The error causes (60_exceptions.md R201). The last two are named by the taxonomy and never raised
(R204, R205). -/
inductive Cause where
  | truncatedFrame
  | payloadTooLarge
  | unrecognizedType
  | desyncError
  deriving DecidableEq, Repr

/-- What an operation returns to its issuer (R15). -/
inductive Result where
  /-- FEED that completes no frame, and RESET. -/
  | nothing
  /-- FEED that completes a frame: the codec's message and the adapter's (R135). -/
  | frame (raw recovered : Message)
  /-- ENCODE. -/
  | bytes (s : List Byte)
  /-- DECODE. -/
  | msg (m : Message)
  /-- An error: a result like any other, not a trap (R200). -/
  | error (e : Cause)
  deriving DecidableEq, Repr

/-- One operation as the environment issues it: the command word and what it drives onto the operand
ports (R71, R73); `none` leaves a port as it was. -/
structure Request where
  cmd   : CmdWord
  msg   : Option Message
  block : Option (List Byte)
  deriving DecidableEq, Repr

/-- The state of one block. Only `rx` is the spec's architectural state (R20); `cfg` never changes
(R25); `msgPort` and `blockPort` are inputs, `result` is an output, and `queue` is the model's own
account of the operations still to be issued (log entries 1 to 4). -/
structure State where
  rx        : Receiver
  cfg       : Config
  msgPort   : Message
  blockPort : List Byte
  result    : Option Result
  queue     : List Request
  deriving DecidableEq, Repr

/-- The message port with every wire at zero: index 0, no payload, and the type byte 0x00 where the
variant has one. DESIGN CHOICE (log entry 3), unsafe: the spec gives an input port no reset value. -/
def idleMessage (c : Config) : Message where
  index   := 0
  type    := match c.variant with
    | .typeTagged => some 0x00
    | .indexOnly  => none
  payload := []

/-- A freshly made block with the given parameters (R31, R230, R231). -/
def State.fresh (c : Config) : State where
  rx        := Receiver.fresh
  cfg       := c
  msgPort   := idleMessage c
  blockPort := []
  result    := none
  queue     := []

/-- The block right after reset, with the default parameters (log entry 2). -/
def State.reset : State := State.fresh Config.default

/-- Why the machine stops with a fault. -/
inductive Fault where
  /-- Raised by an append to a buffer that already holds 256 bytes (`Receiver.memWrite`). No state
  reached from reset raises it (R22, R24). Safe: the spec gives the buffer no cell past 255. -/
  | bufferFull
  deriving DecidableEq, Repr

/-- Why the model gives an input no meaning (R17). Every one but the first is the spec's own
refusal, and all are safe. -/
inductive Refusal where
  /-- An instruction without a meaning; raised only by an arm of `exec`. Safe. -/
  | notModelled (mnemonic : String)
  /-- `step`: the command word is reserved (R74). Safe. -/
  | reservedCommand (e : DecodeError)
  /-- ENCODE, TypeTagged: the message has no type (R164). Safe. -/
  | messageTypeAbsent
  /-- ENCODE, IndexOnly: the message has a type (R164). Safe. -/
  | messageTypePresent
  /-- ENCODE, TypeTagged: the message's type is not a type code (R164). Safe. -/
  | messageTypeNotACode (t : Byte)
  /-- DECODE: more than 256 bytes (R165). Safe. -/
  | blockTooLong (n : Nat)
  deriving DecidableEq, Repr

end Sys2Proof.Machine
end

