-- ==== Sys2Proof/Machine/Flags.lean ====
section
/-! DEFINITION. The block has no condition codes, status flags or sticky bits (10_state.md R29). What
stands in their place is the number of an operation's cause (60_exceptions.md R201), and the bit
encoding of the receiver's state (10_state.md R21). -/

namespace Sys2Proof.Machine

/-- The number of a cause (R201; D5). -/
def Cause.code : Cause → Nat
  | .truncatedFrame   => 1
  | .payloadTooLarge  => 2
  | .unrecognizedType => 3
  | .desyncError      => 4

/-- The cause number of a result, 0 when the operation succeeded (R201). -/
def Result.code : Result → Nat
  | .nothing   => 0
  | .frame _ _ => 0
  | .bytes _   => 0
  | .msg _     => 0
  | .error e   => e.code

/-- The bit that stands for `rx.state` (R21); no rule reads it. -/
def RxState.bit : RxState → BitVec 1
  | .awaitingLength => 0
  | .accumulating   => 1

end Sys2Proof.Machine
end

