-- ==== Sys2Proof/Machine/Ops.lean ====
section
/-! DEFINITION. The named operations over the receiver's buffer (00_scope.md R14; 20_memory.md R41 to R43),
the completion of an operation with its result, which is also how an error is raised (60_exceptions.md
R200), and the issue of the next operation by the environment (10_state.md R26).
The block has no trap entry and no return from one (R209, R210): `finish` stands where a processor's
shared exception entry would. -/

namespace Sys2Proof.Machine

/-- `MemRead(i, n)`: the bytes `rx.acc[i .. i+n-1]`, defined only inside the buffer (R14, R42). -/
def Receiver.memRead (rx : Receiver) (i n : Nat) : Option (List Byte) :=
  if i + n ≤ rx.acc.length then some ((rx.acc.drop i).take n) else none

/-- `MemWrite(|rx.acc|, 1, b)`: append one byte, if a cell is left for it (R14, R22, R41).
DESIGN CHOICE (log entry 5), safe: no run from reset finds the buffer full. -/
def Receiver.memWrite (rx : Receiver) (b : Byte) : Except Fault Receiver :=
  if rx.acc.length < bufDepth then .ok { rx with acc := rx.acc ++ [b] } else .error .bufferFull

/-- The effect of the source's `reset()` on the receiver (R43, R138): all three registers to their
reset values. -/
def Receiver.doReset (_rx : Receiver) : Receiver := Receiver.fresh

/-- `|rx.acc| ≥ 1 + rx.expected_length`, on natural numbers (R132). -/
def Receiver.frameComplete (rx : Receiver) : Bool :=
  decide (1 + rx.expectedLength.toNat ≤ rx.acc.length)

/-- The state with another receiver. -/
def State.setRx (s : State) (rx : Receiver) : State := { s with rx := rx }

/-- The state with the result of the operation just completed. -/
def State.setResult (s : State) (r : Result) : State := { s with result := some r }

/-- The state as the environment's next operation finds it: the request taken from the queue and its
operands on the ports (R73). -/
def State.drive (s : State) (r : Request) (rest : List Request) : State :=
  { s with queue     := rest
           msgPort   := r.msg.getD s.msgPort
           blockPort := r.block.getD s.blockPort }

/-- End an operation with its result (R14 `return`, R15). -/
def finish (r : Result) (s : State) : Host.Outcome State Fault Refusal :=
  .next (s.setResult r)

/-- End an operation with an error: nothing is saved, no control is transferred, and the issuer gets
the cause as the result (R14 `raise`, R200, R209). -/
def raise (e : Cause) (s : State) : Host.Outcome State Fault Refusal :=
  finish (.error e) s

/-- The environment issues its next operation: the command word, and the state with the operand ports
as the request drives them (R15, R73). `none` when nothing is left to issue. -/
def issue (s : State) : Option (CmdWord × State) :=
  match s.queue with
  | []        => none
  | r :: rest => some (r.cmd, s.drive r rest)

/-- Nothing to issue: the block waits, for as long as it takes, and nothing changes (R213).
DESIGN CHOICE (log entry 1), unsafe for a build that changes its state while idle, which R213 excludes. -/
def idle (s : State) : Host.Outcome State Fault Refusal := .next s

/-- Put a command word first in the environment's queue, leaving the operand ports as they are.
DESIGN CHOICE (log entry 1), safe: it stands for the environment's load of one operation. -/
def present (cmd : CmdWord) (s : State) : State :=
  { s with queue := { cmd := cmd, msg := none, block := none } :: s.queue }

end Sys2Proof.Machine
end

