-- ==== Sys2Proof/Machine/Operands.lean ====
section
/-! DEFINITION. The operand forms: FEED's imm8 comes with the operation; ENCODE reads the message port
and DECODE the byte-block port (30_encoding.md R73), and each port's operand may be refused
(42_adapter.md R164, R165). Also the bytes of the index field (30_encoding.md R64). -/

namespace Sys2Proof.Machine

/-- The four bytes of an index, most significant first (R44, R64, R101). -/
def indexBytes (i : Index) : List Byte :=
  [i.extractLsb' 24 8, i.extractLsb' 16 8, i.extractLsb' 8 8, i.extractLsb' 0 8]

/-- The index that four bytes make, most significant first (R44, R64, R106). -/
def indexOfBytes (b3 b2 b1 b0 : Byte) : Index := b3 ++ b2 ++ b1 ++ b0

/-- The two refusals of ENCODE: a type present where the variant has none or absent where it has one,
and a type that is not a type code (R164). The payload length is not looked at.
DEDUCED (log entry 10), safe: in IndexOnly the port's type is looked at for its presence alone. -/
def messageRefusal (c : Config) (m : Message) : Option Refusal :=
  match c.variant, m.type with
  | .typeTagged, none   => some .messageTypeAbsent
  | .typeTagged, some t => if c.isTypeCode t then none else some (.messageTypeNotACode t)
  | .indexOnly,  some _ => some .messageTypePresent
  | .indexOnly,  none   => none

/-- ENCODE's operand, from the message port (R73, R164). -/
def readMessage (s : State) : Except Refusal Message :=
  match messageRefusal s.cfg s.msgPort with
  | some r => .error r
  | none   => .ok s.msgPort

/-- DECODE's operand, from the byte-block port: at most 256 bytes (R73, R165; D10). -/
def readBlock (s : State) : Except Refusal (List Byte) :=
  if s.blockPort.length ≤ bufDepth then .ok s.blockPort
  else .error (.blockTooLong s.blockPort.length)

end Sys2Proof.Machine
end

