-- ==== Sys2Proof/Machine/Codec.lean ====
section
/-! DEFINITION. The message codec (40_message_codec.md): serialize and deserialize, pure functions of
their operand and the parameters (R113). -/

namespace Sys2Proof.Machine

/-- The type field of a frame: one byte in TypeTagged, nothing in IndexOnly (R62, R63, R101). A
message of the domain of R100 has a type exactly in TypeTagged. -/
def typeField (c : Config) (m : Message) : List Byte :=
  match c.variant with
  | .typeTagged => m.type.toList
  | .indexOnly  => []

/-- `serialize(m)` (R101, R102): the length prefix, the type, the index and the payload, or
PayloadTooLarge when H + n does not fit the length prefix. UNVERIFIED (log entry 8), unsafe for a build that
rejects 251 payload bytes in IndexOnly. -/
def serialize (c : Config) (m : Message) : Except Cause (List Byte) :=
  if c.headerSize + m.payload.length > maxFrameLength then .error .payloadTooLarge
  else .ok (BitVec.ofNat 8 (c.headerSize + m.payload.length) ::
              (typeField c m ++ indexBytes m.index ++ m.payload))

/-- `deserialize(f)` (R105, R106): the fields of the layouts R62 and R63, or TruncatedFrame when
there are fewer than H + 1 bytes. Byte 0 is not looked at (R107; UNVERIFIED, log
entry 7, unsafe for a build that truncates the payload to byte 0's count), the type is coerced
(R108), and the payload is the remainder. -/
def deserialize (c : Config) (f : List Byte) : Except Cause Message :=
  match c.variant, f with
  | .typeTagged, _ :: t :: b3 :: b2 :: b1 :: b0 :: p =>
    .ok { index := indexOfBytes b3 b2 b1 b0, type := some (c.coerce t), payload := p }
  | .indexOnly, _ :: b3 :: b2 :: b1 :: b0 :: p =>
    .ok { index := indexOfBytes b3 b2 b1 b0, type := none, payload := p }
  | _, _ => .error .truncatedFrame

end Sys2Proof.Machine
end

