-- ==== Sys2Proof/Machine/Adapter.lean ====
section
/-! DEFINITION. The protocol adapter (42_adapter.md): the byte and message transforms, and the
operations ENCODE and DECODE. -/

namespace Sys2Proof.Machine

/-- `enc(b)`; the 8-bit sum wraps (R161). -/
def encByte (c : Config) (b : Byte) : Byte :=
  match c.adapter with
  | .identity      => b
  | .additiveShift => b + c.key

/-- `dec(b)`; the 8-bit difference wraps (R161). -/
def decByte (c : Config) (b : Byte) : Byte :=
  match c.adapter with
  | .identity      => b
  | .additiveShift => b - c.key

/-- `transform(m)`: every payload byte through `enc`, the header untouched (R162, R163, R170). -/
def transform (c : Config) (m : Message) : Message :=
  { m with payload := m.payload.map (encByte c) }

/-- `untransform(m)`: every payload byte through `dec`, the header untouched (R162, R163, R170). -/
def untransform (c : Config) (m : Message) : Message :=
  { m with payload := m.payload.map (decByte c) }

/-- The adapter's `encode(Message) → bytes` (R160, R164). -/
def adapterEncode (c : Config) (m : Message) : Except Cause (List Byte) :=
  serialize c (transform c m)

/-- The adapter's `decode(bytes) → Message` (R160, R165). -/
def adapterDecode (c : Config) (f : List Byte) : Except Cause Message :=
  match deserialize c f with
  | .error e => .error e
  | .ok m    => .ok (untransform c m)

/-- ENCODE (R164). No state is written but the result (R169). -/
def execEncode (s : State) : Host.Outcome State Fault Refusal :=
  match readMessage s with
  | .error r => .refused r
  | .ok m    =>
    match adapterEncode s.cfg m with
    | .error e => raise e s
    | .ok f    => finish (.bytes f) s

/-- DECODE (R165). No state is written but the result (R169). -/
def execDecode (s : State) : Host.Outcome State Fault Refusal :=
  match readBlock s with
  | .error r => .refused r
  | .ok f    =>
    match adapterDecode s.cfg f with
    | .error e => raise e s
    | .ok m    => finish (.msg m) s

end Sys2Proof.Machine
end

