-- ==== Sys2Proof/Machine/Receive.lean ====
section
/-! DEFINITION. The frame receiver's operations FEED and RESET (41_receiver.md). -/

namespace Sys2Proof.Machine

/-- The result of a completed frame: both messages, or the codec's error, which FEED reports
(R133 to R135). UNVERIFIED (log entry 6), unsafe for a build that absorbs the error. -/
def frameResult (c : Config) (f : List Byte) : Result :=
  match deserialize c f with
  | .error e => .error e
  | .ok raw  => .frame raw (untransform c raw)

/-- FEED in AwaitingLength: the byte is the frame length and the first byte of the buffer (R131). -/
def feedLength (b : Byte) (s : State) : Host.Outcome State Fault Refusal :=
  match s.rx.memWrite b with
  | .error e => .fault e
  | .ok rx   => finish .nothing (s.setRx { rx with state := .accumulating, expectedLength := b })

/-- FEED in Accumulating: append, and when the count is reached read the whole buffer, reset the
receiver whichever way the decode ends, and deliver (R132 to R134). -/
def feedAccumulate (b : Byte) (s : State) : Host.Outcome State Fault Refusal :=
  match s.rx.memWrite b with
  | .error e => .fault e
  | .ok rx   =>
    if rx.frameComplete then finish (frameResult s.cfg rx.acc) (s.setRx rx.doReset)
    else finish .nothing (s.setRx rx)

/-- FEED (R130). -/
def execFeed (b : Byte) (s : State) : Host.Outcome State Fault Refusal :=
  match s.rx.state with
  | .awaitingLength => feedLength b s
  | .accumulating   => feedAccumulate b s

/-- RESET (R138). -/
def execReset (s : State) : Host.Outcome State Fault Refusal :=
  finish .nothing (s.setRx s.rx.doReset)

end Sys2Proof.Machine
end

