-- ==== Sys2Proof/Machine/Step.lean ====
section
/-! DEFINITION. One step: the environment's next operation, run to completion with one result
(00_scope.md R15). -/

namespace Sys2Proof.Machine

/-- One step (R15): take the next operation, decode its command word, and run it; a reserved word is
refused (R74); with nothing to issue the block waits. -/
def step (s : State) : Host.Outcome State Fault Refusal :=
  match issue s with
  | none => idle s
  | some (cmd, s') =>
    match decode cmd with
    | .ok i    => exec i s'
    | .error e => .refused (.reservedCommand e)

/-- The state whose next step runs the command word that the opcode table's bits name. The operand
ports stay as they are (log entry 3). -/
def State.withFetchWord (s : State) (nbits w : Nat) : State :=
  match tableWord nbits w with
  | some cmd => present cmd s
  | none     => s

end Sys2Proof.Machine
end

