-- ==== Sys2Proof/Machine/Assembly.lean ====
section
/-! DEFINITION. Assembler lines and the pseudo-operations FEEDS and LOOPBACK (30_encoding.md R75, R76):
what each line has the environment issue, and what a run of FEEDs returns. -/

namespace Sys2Proof.Machine

/-- One line of a program (R75). -/
inductive AsmLine where
  | feed (b : Byte)
  | reset
  | encode (m : Message)
  | decode (f : List Byte)
  deriving DecidableEq, Repr

/-- What a line has the environment issue: its command word by R72 and its operand on its port. -/
def AsmLine.request : AsmLine → Request
  | .feed b   => { cmd := Sys2Proof.encode (.feed b), msg := none, block := none }
  | .reset    => { cmd := Sys2Proof.encode .reset, msg := none, block := none }
  | .encode m => { cmd := Sys2Proof.encode .encode, msg := some m, block := none }
  | .decode f => { cmd := Sys2Proof.encode .decode, msg := none, block := some f }

/-- A program: one operation per line, in order (R75). -/
def assemble (ls : List AsmLine) : List Request := ls.map AsmLine.request

/-- `FEEDS [b0 b1 … bk]` (R76). -/
def feeds (bs : List Byte) : List AsmLine := bs.map AsmLine.feed

/-- `LOOPBACK m`: ENCODE m, then FEEDS of the bytes it returns; not defined when ENCODE refuses m or
returns an error (R76). -/
def loopback (c : Config) (m : Message) : Option (List AsmLine) :=
  match messageRefusal c m, adapterEncode c m with
  | none, .ok f => some (.encode m :: feeds f)
  | _, _        => none

/-- The results of FEEDing bytes one at a time, and the state after the last; `none` if a FEED faults. -/
def runFeeds : List Byte → State → Option (List Result × State)
  | [], s => some ([], s)
  | b :: bs, s =>
    match exec (.feed b) s with
    | .next t =>
      match t.result, runFeeds bs t with
      | some r, some (rs, u) => some (r :: rs, u)
      | _, _                 => none
    | .fault _   => none
    | .refused _ => none

end Sys2Proof.Machine
end

