-- ==== Sys2Proof/Safety.lean ====
section
/-! DEFINITION. What a safe run is: the invariant of every reachable state (10_state.md R24), and what
counts as a well-formed result (10_state.md R27; 30_encoding.md R68). -/

namespace Sys2Proof.Machine

/-- The invariants of a reachable receiver, clauses (a) and (b) (R24). -/
def Receiver.wf (rx : Receiver) : Bool :=
  match rx.state with
  | .awaitingLength => rx.acc.isEmpty
  | .accumulating   =>
    rx.acc.head? == some rx.expectedLength &&
      decide (rx.acc.length < max 2 (1 + rx.expectedLength.toNat))

/-- The bytes of a frame that serialize can make: the length prefix counts the bytes after it and
covers at least a header (R61, R68). -/
def frameBytesOk (c : Config) (f : List Byte) : Bool :=
  match f with
  | []        => false
  | l :: rest => decide (l.toNat = rest.length) && decide (c.headerSize ≤ l.toNat)

/-- A cause that some operation can raise (R201, R204, R205). -/
def Cause.raisable : Cause → Bool
  | .truncatedFrame   => true
  | .payloadTooLarge  => true
  | .unrecognizedType => false
  | .desyncError      => false

/-- A result an operation can return: its messages are well formed, its bytes are a frame, its cause
is one that is raised. -/
def Result.wf (c : Config) : Result → Bool
  | .nothing            => true
  | .frame raw recovered => raw.wf c && recovered.wf c
  | .bytes f            => frameBytesOk c f
  | .msg m              => m.wf c
  | .error e            => e.raisable

/-- The invariant every step keeps: the parameters meet R10, the receiver R24, and the result of the
last operation, if there was one, is well formed. -/
def State.inv (s : State) : Bool :=
  s.cfg.wf && s.rx.wf && (match s.result with
    | none   => true
    | some r => r.wf s.cfg)

/-- Two states that differ at most in `rx.expected_length` (R30). -/
def State.sameButLength (s t : State) : Prop :=
  t = { s with rx := { s.rx with expectedLength := t.rx.expectedLength } }

/-- Two outcomes of the same kind whose next states differ at most in `rx.expected_length`. -/
def sameOutcomeButLength (o p : Host.Outcome State Fault Refusal) : Prop :=
  match o, p with
  | .next s, .next t       => s.sameButLength t
  | .fault e, .fault e'    => e = e'
  | .refused r, .refused r' => r = r'
  | _, _                   => False

end Sys2Proof.Machine
end

