-- ==== Sys2Proof/Certificates/Slice0/Obligations.lean ====
section
/-! DEFINITION. The statements for the provers, one per rule or group of rules of the spec. Each holds
for every configuration: `s.cfg` is any VARIANT, ADAPTER, KEY and KNOWN_TYPES unless a premise says so. -/

open Sys2Proof Sys2Proof.Machine

/-! ### Reset -/

/-- R31, R230: power-on, instantiation, RESET and the completion of a frame all leave the receiver in
the one reset state, and none of them touches the parameters. -/
def Obligations.ResetStateOfReceiver : Prop :=
  State.reset.rx = { state := .awaitingLength, acc := [], expectedLength := 0 } ∧
  (∀ c : Config, (State.fresh c).rx = State.reset.rx ∧ (State.fresh c).cfg = c) ∧
  (∀ s : State, ∃ t, exec .reset s = .next t ∧ t.rx = State.reset.rx ∧ t.cfg = s.cfg) ∧
  (∀ (b : Byte) (s : State), s.rx.state = .accumulating → s.rx.acc.length < 256 →
    1 + s.rx.expectedLength.toNat ≤ s.rx.acc.length + 1 →
    ∃ t, exec (.feed b) s = .next t ∧ t.rx = State.reset.rx ∧ t.cfg = s.cfg)

/-- The machine right after reset meets the invariant, for the default parameters and for any that
meet R10. The parameters of `State.reset` are the model's choice (log entry 2). -/
def Obligations.FreshStateMeetsInvariant : Prop :=
  State.reset.inv = true ∧ ∀ c : Config, c.wf = true → (State.fresh c).inv = true

/-! ### Steps, command words -/

/-- A step takes the environment's next operation, drives the operand ports as the request says, and is
`exec` of the operation its command word decodes to. The queue is the model's own (log entry 1). -/
def Obligations.StepRunsDecodedOperation : Prop :=
  ∀ (s : State) (r : Request) (rest : List Request) (i : Instr),
    s.queue = r :: rest → decode r.cmd = .ok i → i.wf = true →
    step s = exec i { s with queue := rest, msgPort := r.msg.getD s.msgPort, blockPort := r.block.getD s.blockPort }

/-- A command word placed with `withFetchWord` is what the very next step runs, on the ports as they
stand, and nothing else of the state is changed for it. -/
def Obligations.PlacedWordRunsNext : Prop :=
  ∀ (s : State) (w : Nat) (i : Instr), decodeTableWord 16 w = some i →
    step (s.withFetchWord 16 w) = exec i s

/-- R74: a step refuses a command word as reserved exactly when its opcode is 0x00 or 0x05 to 0xFF, or
it is RESET, ENCODE or DECODE with an imm8 that is not 0x00. -/
def Obligations.ReservedCommandWordsRefused : Prop :=
  ∀ (s : State) (r : Request) (rest : List Request), s.queue = r :: rest →
    ((∃ e, step s = .refused (.reservedCommand e)) ↔
      (r.cmd.toNat / 256 = 0 ∨ 5 ≤ r.cmd.toNat / 256 ∨
        (2 ≤ r.cmd.toNat / 256 ∧ r.cmd.toNat / 256 ≤ 4 ∧ r.cmd.toNat % 256 ≠ 0)))

/-- With no operation issued the block waits and nothing changes (R213; the model's choice, log
entry 1). -/
def Obligations.IdleStepWaits : Prop :=
  ∀ s : State, s.queue = [] → step s = .next s

/-- Command words written out from R72 and the programs of 95_test_vectors.md decode to the operations
they stand for, and words next to them are rejected. -/
def Obligations.CommandWordsReadAsSpecified : Prop :=
  decode 0x010A = .ok (.feed 0x0A) ∧ decode 0x01FF = .ok (.feed 0xFF) ∧ decode 0x0100 = .ok (.feed 0x00) ∧
  decode 0x0200 = .ok .reset ∧ decode 0x0300 = .ok .encode ∧ decode 0x0400 = .ok .decode ∧
  decode 0x0201 = .error (.reservedImmediate 0x0201) ∧ decode 0x0500 = .error (.reservedOpcode 0x0500) ∧
  decode 0x0000 = .error (.reservedOpcode 0x0000)

/-- R72: the decoder selects by `(cmd & mask) = match`, and FEED's byte is imm8. -/
def Obligations.OpcodeMapSelectsByMask : Prop :=
  ∀ w : CmdWord,
    (w &&& 0xFF00 = 0x0100 → decode w = .ok (.feed (BitVec.ofNat 8 (w.toNat % 256)))) ∧
    (w &&& 0xFFFF = 0x0200 → decode w = .ok .reset) ∧
    (w &&& 0xFFFF = 0x0300 → decode w = .ok .encode) ∧
    (w &&& 0xFFFF = 0x0400 → decode w = .ok .decode)

/-- Decoding an encoded operation gives it back, with FEED's byte at every value, also in the opcode
table's numbering of bits. -/
def Obligations.DecodeAfterEncode : Prop :=
  ∀ i : Instr, i.wf = true →
    decode (encode i) = .ok i ∧ decodeTableWord 16 (encode i).toNat = some i

/-- A word that decodes is the encoding of what it decodes to, and only that operation's row of the
opcode map covers it: every command word has at most one meaning. -/
def Obligations.EncodeAfterDecode : Prop :=
  ∀ (w : CmdWord) (i : Instr), decode w = .ok i →
    i.wf = true ∧ encode i = w ∧
    ∀ r ∈ opcodeMap, r.covers w = true → r.sample.mnemonic = i.mnemonic

/-! ### FEED and RESET -/

/-- R131: FEED in AwaitingLength takes the byte, whatever it is, as the frame length, holds it as the
first byte of the buffer, moves to Accumulating and returns Nothing; nothing else changes. -/
def Obligations.FeedTakesLengthByte : Prop :=
  ∀ (b : Byte) (s : State), s.rx.state = .awaitingLength → s.rx.acc = [] →
    exec (.feed b) s = .next { s with
      rx     := { state := .accumulating, acc := [b], expectedLength := b }
      result := some .nothing }

/-- R132: FEED in Accumulating that leaves the count below 1 + expected_length appends the byte and
returns Nothing; nothing else changes. -/
def Obligations.FeedAppendsBelowCount : Prop :=
  ∀ (b : Byte) (s : State), s.rx.state = .accumulating →
    (s.rx.acc ++ [b]).length < 1 + s.rx.expectedLength.toNat →
    exec (.feed b) s = .next { s with
      rx     := { state := .accumulating, acc := s.rx.acc ++ [b], expectedLength := s.rx.expectedLength }
      result := some .nothing }

/-- R133: a FEED that reaches the count hands the whole buffer to deserialize, resets the receiver and
delivers the message it gives, raw and recovered; nothing else changes. -/
def Obligations.FeedDeliversCompleteFrame : Prop :=
  ∀ (b : Byte) (s : State) (raw : Message), s.rx.state = .accumulating → s.rx.acc.length < 256 →
    1 + s.rx.expectedLength.toNat ≤ (s.rx.acc ++ [b]).length →
    deserialize s.cfg (s.rx.acc ++ [b]) = .ok raw →
    exec (.feed b) s = .next { s with
      rx     := { state := .awaitingLength, acc := [], expectedLength := 0 }
      result := some (.frame raw (untransform s.cfg raw)) }

/-- R134: a FEED that reaches the count with fewer than H + 1 bytes resets the receiver all the same and
returns Error(TruncatedFrame); the next FEED starts a new frame. -/
def Obligations.FeedReportsShortFrame : Prop :=
  ∀ (b : Byte) (s : State), s.rx.state = .accumulating →
    1 + s.rx.expectedLength.toNat ≤ (s.rx.acc ++ [b]).length →
    (s.rx.acc ++ [b]).length < s.cfg.headerSize + 1 →
    ∃ t : State,
      t = { s with
        rx     := { state := .awaitingLength, acc := [], expectedLength := 0 }
        result := some (.error .truncatedFrame) } ∧
      exec (.feed b) s = .next t ∧
      ∀ b' : Byte, exec (.feed b') t = .next { t with
        rx     := { state := .accumulating, acc := [b'], expectedLength := b' }
        result := some .nothing }

/-- R135: a delivered Frame carries the message deserialize makes from the frame and that message with
its payload through the adapter's inverse; the recovered message is DECODE of the same bytes; with the
Identity adapter the two are equal. -/
def Obligations.FrameCarriesRawAndRecovered : Prop :=
  ∀ (b : Byte) (s t : State) (raw recovered : Message),
    exec (.feed b) s = .next t → t.result = some (.frame raw recovered) →
    deserialize s.cfg (s.rx.acc ++ [b]) = .ok raw ∧
    recovered.index = raw.index ∧ recovered.type = raw.type ∧
    recovered.payload = raw.payload.map (decByte s.cfg) ∧
    exec .decode { t with blockPort := s.rx.acc ++ [b] } =
      .next { t with blockPort := s.rx.acc ++ [b], result := some (.msg recovered) } ∧
    (s.cfg.adapter = .identity → recovered = raw)

/-- R136: what each length byte does. L = 0 takes two bytes and fails; 1 ≤ L ≤ H - 1 fails on the
(1 + L)-th byte; L ≥ H delivers a frame on the (1 + L)-th byte. -/
def Obligations.LengthBytesBelowAndAboveHeader : Prop :=
  ∀ (s : State), s.rx.state = .awaitingLength → s.rx.acc = [] →
    (∀ b : Byte, runFeeds [0x00, b] s = some ([.nothing, .error .truncatedFrame],
      { s with rx := Receiver.fresh, result := some (.error .truncatedFrame) })) ∧
    (∀ (l : Byte) (bs : List Byte), 1 ≤ l.toNat → l.toNat ≤ s.cfg.headerSize - 1 → bs.length = l.toNat →
      runFeeds (l :: bs) s = some (List.replicate l.toNat .nothing ++ [.error .truncatedFrame],
        { s with rx := Receiver.fresh, result := some (.error .truncatedFrame) })) ∧
    (∀ (l : Byte) (bs : List Byte), s.cfg.headerSize ≤ l.toNat → bs.length = l.toNat →
      ∃ raw, deserialize s.cfg (l :: bs) = .ok raw ∧
        runFeeds (l :: bs) s = some (List.replicate l.toNat .nothing ++ [.frame raw (untransform s.cfg raw)],
          { s with rx := Receiver.fresh, result := some (.frame raw (untransform s.cfg raw)) }))

/-- R137: from AwaitingLength a frame with length byte L ends with the max(2, 1 + L)-th FEED, the only
one with a result other than Nothing; the receiver is then fresh, so the bytes that follow are read as
they would be by a fresh receiver. -/
def Obligations.FrameTakesCountedBytes : Prop :=
  ∀ (s : State) (l : Byte) (bs rest : List Byte), s.rx.state = .awaitingLength → s.rx.acc = [] →
    bs.length + 1 = max 2 (1 + l.toNat) →
    ∃ (r : Result) (t : State), r ≠ .nothing ∧ t.rx = Receiver.fresh ∧
      runFeeds (l :: bs) s = some (List.replicate bs.length .nothing ++ [r], t) ∧
      runFeeds (l :: bs ++ rest) s =
        (runFeeds rest t).map (fun p => (List.replicate bs.length .nothing ++ [r] ++ p.1, p.2))

/-- R138: RESET, command word 0x0200, in either state: the receiver's registers take their reset
values, a partial frame is dropped, and the result is Nothing; nothing else changes. -/
def Obligations.ResetClearsReceiver : Prop :=
  decode 0x0200 = .ok .reset ∧
  ∀ s : State, exec .reset s = .next { s with
    rx     := { state := .awaitingLength, acc := [], expectedLength := 0 }
    result := some .nothing }

/-- R141: after a completed frame, delivered or not, and after RESET, the receiver is exactly the
freshly made one. -/
def Obligations.CompletedReceiverIsFresh : Prop :=
  (∀ (b : Byte) (s t : State) (r : Result), exec (.feed b) s = .next t → t.result = some r →
    r ≠ .nothing → t.rx = (State.fresh s.cfg).rx) ∧
  (∀ s t : State, exec .reset s = .next t → t.rx = (State.fresh s.cfg).rx)

/-- R140: feeding the bytes of serialize(m) one at a time gives one frame, m with its inverse transform,
on the last byte and Nothing before; feeding ENCODE(m) gives transform(m) and recovers m. -/
def Obligations.IncrementalEquivalence : Prop :=
  ∀ (s : State) (m : Message), s.rx.state = .awaitingLength → s.rx.acc = [] → m.wf s.cfg = true →
    (∃ f t, serialize s.cfg m = .ok f ∧
      runFeeds f s = some (List.replicate (f.length - 1) .nothing ++ [.frame m (untransform s.cfg m)], t) ∧
      t.rx.state = .awaitingLength ∧ t.rx.acc = []) ∧
    (∃ f t, adapterEncode s.cfg m = .ok f ∧
      runFeeds f s = some (List.replicate (f.length - 1) .nothing ++ [.frame (transform s.cfg m) m], t) ∧
      t.rx.state = .awaitingLength ∧ t.rx.acc = [])

/-- R60, R137, R140: frames sent back to back, with nothing between them, are split at the right
places: the receiver delivers exactly the messages that were serialized, in order. -/
def Obligations.StreamOfFramesIsSplit : Prop :=
  ∀ (s : State) (ms : List Message) (fs : List (List Byte)),
    s.rx.state = .awaitingLength → s.rx.acc = [] →
    (∀ m ∈ ms, m.wf s.cfg = true) → ms.map (serialize s.cfg) = fs.map Except.ok →
    ∃ rs t, runFeeds fs.flatten s = some (rs, t) ∧
      t.rx.state = .awaitingLength ∧ t.rx.acc = [] ∧
      rs.filter (fun r => decide (r ≠ .nothing)) = ms.map (fun m => .frame m (untransform s.cfg m))

/-- R41, R43: only FEED writes the buffer, by appending its byte at the end; RESET and a completion empty
it; ENCODE and DECODE leave it. Until the frame that begins with length byte l is complete, the buffer
holds exactly the bytes fed since the receiver was last reset, in order. -/
def Obligations.BufferHoldsBytesFed : Prop :=
  (∀ (i : Instr) (s t : State), exec i s = .next t →
    (∃ b, i = .feed b ∧ t.result = some .nothing ∧ t.rx.acc = s.rx.acc ++ [b]) ∨
    (∃ b, i = .feed b ∧ t.result ≠ some .nothing ∧ t.rx.acc = []) ∨
    (i = .reset ∧ t.rx.acc = []) ∨
    ((i = .encode ∨ i = .decode) ∧ t.rx.acc = s.rx.acc)) ∧
  (∀ (s : State) (l : Byte) (bs : List Byte), s.rx.state = .awaitingLength → s.rx.acc = [] →
    bs.length + 1 < max 2 (1 + l.toNat) →
    runFeeds (l :: bs) s = some (List.replicate (bs.length + 1) .nothing,
      { s with rx := { state := .accumulating, acc := l :: bs, expectedLength := l }, result := some .nothing }))

/-- R240, R241: RESET drops whatever frame is in progress, and the byte fed after it is read as a
length byte. -/
def Obligations.ResetThenFeedStartsFrame : Prop :=
  ∀ (b : Byte) (s : State), ∃ t, exec .reset s = .next t ∧
    exec (.feed b) t = .next { s with
      rx     := { state := .accumulating, acc := [b], expectedLength := b }
      result := some .nothing }

/-- FEED and RESET change nothing but the receiver and the result: not the parameters, not the ports,
not the operations still to be issued. -/
def Obligations.ReceiverOperationsFrame : Prop :=
  ∀ (s t : State),
    ((∃ b, exec (.feed b) s = .next t) ∨ exec .reset s = .next t) →
    t = { s with rx := t.rx, result := t.result }

/-! ### The message codec -/

/-- R8, R11: the header size and the limits that follow from it. -/
def Obligations.HeaderSizesAndLimits : Prop :=
  ∀ c : Config,
    (c.variant = .typeTagged → c.headerSize = 5 ∧ c.maxPayload = 250 ∧ c.indexOffset = 2) ∧
    (c.variant = .indexOnly → c.headerSize = 4 ∧ c.maxPayload = 251 ∧ c.indexOffset = 1)

/-- R102: serialize raises PayloadTooLarge exactly when H + n exceeds 255, that is when n exceeds
MAX_PAYLOAD, and raises no other error. -/
def Obligations.PayloadTooLargeExactly : Prop :=
  ∀ (c : Config) (m : Message),
    (serialize c m = .error .payloadTooLarge ↔ 255 < c.headerSize + m.payload.length) ∧
    (255 < c.headerSize + m.payload.length ↔ c.maxPayload < m.payload.length) ∧
    (∀ e, serialize c m = .error e → e = .payloadTooLarge)

/-- R62: the TypeTagged layout, field by field, with the payload at byte 6. -/
def Obligations.TypeTaggedLayout : Prop :=
  ∀ (c : Config) (m : Message) (t : Byte), c.variant = .typeTagged → m.type = some t →
    m.payload.length ≤ 250 →
    ∃ f, serialize c m = .ok f ∧ f.length = 6 + m.payload.length ∧
      f[0]? = some (BitVec.ofNat 8 (5 + m.payload.length)) ∧
      f[1]? = some t ∧
      f[2]? = some (BitVec.ofNat 8 (m.index.toNat / 2 ^ 24)) ∧
      f[3]? = some (BitVec.ofNat 8 (m.index.toNat / 2 ^ 16)) ∧
      f[4]? = some (BitVec.ofNat 8 (m.index.toNat / 2 ^ 8)) ∧
      f[5]? = some (BitVec.ofNat 8 m.index.toNat) ∧
      ∀ k : Nat, f[6 + k]? = m.payload[k]?

/-- R63: the IndexOnly layout, field by field, with the payload at byte 5 and no type byte. -/
def Obligations.IndexOnlyLayout : Prop :=
  ∀ (c : Config) (m : Message), c.variant = .indexOnly → m.payload.length ≤ 251 →
    ∃ f, serialize c m = .ok f ∧ f.length = 5 + m.payload.length ∧
      f[0]? = some (BitVec.ofNat 8 (4 + m.payload.length)) ∧
      f[1]? = some (BitVec.ofNat 8 (m.index.toNat / 2 ^ 24)) ∧
      f[2]? = some (BitVec.ofNat 8 (m.index.toNat / 2 ^ 16)) ∧
      f[3]? = some (BitVec.ofNat 8 (m.index.toNat / 2 ^ 8)) ∧
      f[4]? = some (BitVec.ofNat 8 m.index.toNat) ∧
      ∀ k : Nat, f[5 + k]? = m.payload[k]?

/-- R61, R68: what serialize makes of a message with a legal type is a frame whose prefix counts the
bytes after it, lies between H and 255, and whose type byte, in TypeTagged, is a type code. -/
def Obligations.SerializedFrameRanges : Prop :=
  ∀ (c : Config) (m : Message), m.wf c = true →
    ∃ l rest, serialize c m = .ok (l :: rest) ∧
      l.toNat = rest.length ∧ l.toNat = c.headerSize + m.payload.length ∧
      c.headerSize ≤ l.toNat ∧ l.toNat ≤ 255 ∧ m.payload.length ≤ c.maxPayload ∧
      (c.variant = .typeTagged → ∃ t, rest.head? = some t ∧ (t ∈ c.knownTypes ∨ t = 0xFF))

/-- R105, R106: deserialize fails exactly on fewer than H + 1 bytes; otherwise the message has the
coerced type, the big-endian index at offset H - 3 and the remainder as payload, and it is well formed. -/
def Obligations.DeserializeFields : Prop :=
  ∀ (c : Config) (f : List Byte), f.length ≤ 256 →
    (f.length < c.headerSize + 1 → deserialize c f = .error .truncatedFrame) ∧
    (c.headerSize + 1 ≤ f.length → ∃ m b3 b2 b1 b0,
      deserialize c f = .ok m ∧
      f[c.headerSize - 3]? = some b3 ∧ f[c.headerSize - 2]? = some b2 ∧
      f[c.headerSize - 1]? = some b1 ∧ f[c.headerSize]? = some b0 ∧
      m.index.toNat = b3.toNat * 2 ^ 24 + b2.toNat * 2 ^ 16 + b1.toNat * 2 ^ 8 + b0.toNat ∧
      (c.variant = .typeTagged → m.type = f[1]?.map c.coerce) ∧
      (c.variant = .indexOnly → m.type = none) ∧
      m.payload = f.drop (c.headerSize + 1) ∧
      m.wf c = true)

/-- R64: the index is written at offset H - 3 most significant byte first, and read back from the same
four bytes, for every index. -/
def Obligations.IndexIsBigEndian : Prop :=
  (∀ (c : Config) (m : Message), m.wf c = true →
    ∃ f, serialize c m = .ok f ∧ c.indexOffset = c.headerSize - 3 ∧
      ((f.drop c.indexOffset).take 4).map BitVec.toNat =
        [m.index.toNat / 2 ^ 24, m.index.toNat / 2 ^ 16 % 256, m.index.toNat / 2 ^ 8 % 256, m.index.toNat % 256]) ∧
  (∀ (c : Config) (f : List Byte) (m : Message), deserialize c f = .ok m →
    ∃ b3 b2 b1 b0, (f.drop c.indexOffset).take 4 = [b3, b2, b1, b0] ∧
      m.index.toNat = b3.toNat * 2 ^ 24 + b2.toNat * 2 ^ 16 + b1.toNat * 2 ^ 8 + b0.toNat)

/-- R66, R108: coercion keeps a known type and maps every other byte to UNDEFINED, is idempotent, and no
type byte ever makes deserialize fail. -/
def Obligations.TypeCoercion : Prop :=
  ∀ c : Config, c.wf = true →
    (∀ t : Byte, (t ∈ c.knownTypes → c.coerce t = t) ∧ (t ∉ c.knownTypes → c.coerce t = 0xFF) ∧
      c.coerce (c.coerce t) = c.coerce t) ∧
    c.coerce 0xFF = 0xFF ∧
    (c.variant = .typeTagged → ∀ (l t : Byte) (rest : List Byte), 4 ≤ rest.length →
      ∃ m, deserialize c (l :: t :: rest) = .ok m ∧ m.type = some (c.coerce t))

/-- R107: deserialize ignores byte 0: the payload is the remainder whatever byte 0 says, and when byte 0
counts the bytes after it the remainder has byte 0 minus H bytes. -/
def Obligations.LengthByteNotRevalidated : Prop :=
  ∀ (c : Config) (l : Byte) (rest : List Byte), c.headerSize ≤ rest.length →
    ∃ m, (∀ l' : Byte, deserialize c (l' :: rest) = .ok m) ∧
      m.payload = rest.drop c.headerSize ∧
      (l.toNat = rest.length → m.payload.length = l.toNat - c.headerSize)

/-- R111: every well-formed message comes back from its frame. -/
def Obligations.CodecRoundTrip : Prop :=
  ∀ (c : Config) (m : Message), m.wf c = true →
    ∃ f, serialize c m = .ok f ∧ deserialize c f = .ok m

/-- R112: a decodable byte sequence comes back from its message exactly when byte 0 counts the bytes
after it and, in TypeTagged, the type byte is a type code; otherwise only byte 0 or the type byte
differs. -/
def Obligations.CodecPartialConverse : Prop :=
  ∀ (c : Config) (f : List Byte), c.headerSize + 1 ≤ f.length → f.length ≤ 256 →
    ∃ m g, deserialize c f = .ok m ∧ serialize c m = .ok g ∧ g.length = f.length ∧
      (g = f ↔
        f[0]? = some (BitVec.ofNat 8 (f.length - 1)) ∧
        (c.variant = .typeTagged → ∃ t, f[1]? = some t ∧ (t ∈ c.knownTypes ∨ t = 0xFF))) ∧
      g[0]? = some (BitVec.ofNat 8 (f.length - 1)) ∧
      g[1]? = (if c.variant = .typeTagged then f[1]?.map c.coerce else f[1]?) ∧
      (∀ k : Nat, 2 ≤ k → g[k]? = f[k]?)

/-- R70: a TypeTagged frame read by an IndexOnly block parses without error, with the type byte as the
top index byte and the last index byte as the first payload byte. The reverse parses too when the
IndexOnly frame has a payload; one without a payload has only five bytes, which R105 makes
TruncatedFrame (log entry 11). -/
def Obligations.VariantMismatchUndetected : Prop :=
  (∀ (c : Config) (l t b3 b2 b1 b0 : Byte) (p : List Byte), c.variant = .indexOnly →
    ∃ m, deserialize c (l :: t :: b3 :: b2 :: b1 :: b0 :: p) = .ok m ∧
      m.index.toNat = t.toNat * 2 ^ 24 + b3.toNat * 2 ^ 16 + b2.toNat * 2 ^ 8 + b1.toNat ∧
      m.type = none ∧ m.payload = b0 :: p) ∧
  (∀ (c : Config) (l b3 b2 b1 b0 : Byte) (p : List Byte), c.variant = .typeTagged →
    (p = [] → deserialize c (l :: b3 :: b2 :: b1 :: b0 :: p) = .error .truncatedFrame) ∧
    (∀ (p0 : Byte) (rest : List Byte), p = p0 :: rest →
      ∃ m, deserialize c (l :: b3 :: b2 :: b1 :: b0 :: p) = .ok m ∧
        m.index.toNat = b2.toNat * 2 ^ 24 + b1.toNat * 2 ^ 16 + b0.toNat * 2 ^ 8 + p0.toNat ∧
        m.type = some (c.coerce b3) ∧ m.payload = rest))

/-! ### The adapter, ENCODE and DECODE -/

/-- R161: the byte transforms of both adapters, modulo 256. -/
def Obligations.ByteTransforms : Prop :=
  ∀ (c : Config) (b : Byte),
    (c.adapter = .identity → encByte c b = b ∧ decByte c b = b) ∧
    (c.adapter = .additiveShift →
      (encByte c b).toNat = (b.toNat + c.key.toNat) % 256 ∧
      (decByte c b).toNat = (b.toNat + 256 - c.key.toNat) % 256)

/-- R162, R170: the message transforms keep index, type, length and order, and each payload lane of the
result is the byte transform of the same lane of the operand and of nothing else. -/
def Obligations.MessageTransformsByLane : Prop :=
  ∀ (c : Config) (m : Message),
    ((transform c m).index = m.index ∧ (transform c m).type = m.type ∧
      (transform c m).payload.length = m.payload.length) ∧
    ((untransform c m).index = m.index ∧ (untransform c m).type = m.type ∧
      (untransform c m).payload.length = m.payload.length) ∧
    ∀ (k : Nat) (b : Byte), m.payload[k]? = some b →
      ∃ e d : Byte, (transform c m).payload[k]? = some e ∧ (untransform c m).payload[k]? = some d ∧
        (c.adapter = .identity → e = b ∧ d = b) ∧
        (c.adapter = .additiveShift →
          e.toNat = (b.toNat + c.key.toNat) % 256 ∧ d.toNat = (b.toNat + 256 - c.key.toNat) % 256)

/-- R163: the adapter leaves the header alone: the first 1 + H bytes of an encoded frame are those of
the plain frame, and a decoded message has the index and type of the plain one. -/
def Obligations.HeaderNeverTransformed : Prop :=
  (∀ (c : Config) (m : Message), m.wf c = true →
    ∃ f g, serialize c m = .ok f ∧ adapterEncode c m = .ok g ∧
      g.take (1 + c.headerSize) = f.take (1 + c.headerSize)) ∧
  (∀ (c : Config) (f : List Byte) (r m : Message), deserialize c f = .ok r → adapterDecode c f = .ok m →
    m.index = r.index ∧ m.type = r.type)

/-- R164: ENCODE, command word 0x0300, refuses a message whose type is absent where the variant has one,
present where it has none, or not a type code, each before anything else; it returns PayloadTooLarge
exactly when H + n exceeds 255, and otherwise the bytes of the transformed message's frame. Only the
result changes. -/
def Obligations.EncodeOperation : Prop :=
  decode 0x0300 = .ok .encode ∧
  ∀ s : State,
    (s.cfg.variant = .typeTagged → s.msgPort.type = none → exec .encode s = .refused .messageTypeAbsent) ∧
    (s.cfg.variant = .indexOnly → s.msgPort.type ≠ none → exec .encode s = .refused .messageTypePresent) ∧
    (∀ t, s.cfg.variant = .typeTagged → s.msgPort.type = some t → t ∉ s.cfg.knownTypes → t ≠ 0xFF →
      exec .encode s = .refused (.messageTypeNotACode t)) ∧
    (((s.cfg.variant = .typeTagged ∧ ∃ t, s.msgPort.type = some t ∧ (t ∈ s.cfg.knownTypes ∨ t = 0xFF)) ∨
      (s.cfg.variant = .indexOnly ∧ s.msgPort.type = none)) →
      (255 < s.cfg.headerSize + s.msgPort.payload.length →
        exec .encode s = .next { s with result := some (.error .payloadTooLarge) }) ∧
      (s.cfg.headerSize + s.msgPort.payload.length ≤ 255 →
        ∃ f, serialize s.cfg (transform s.cfg s.msgPort) = .ok f ∧
          exec .encode s = .next { s with result := some (.bytes f) }))

/-- R165: DECODE, command word 0x0400, refuses more than 256 bytes, returns TruncatedFrame exactly on fewer
than H + 1, and otherwise the message of the frame with its payload untransformed. Only the result
changes. -/
def Obligations.DecodeOperation : Prop :=
  decode 0x0400 = .ok .decode ∧
  ∀ s : State,
    (256 < s.blockPort.length → exec .decode s = .refused (.blockTooLong s.blockPort.length)) ∧
    (s.blockPort.length < s.cfg.headerSize + 1 →
      exec .decode s = .next { s with result := some (.error .truncatedFrame) }) ∧
    (s.cfg.headerSize + 1 ≤ s.blockPort.length → s.blockPort.length ≤ 256 →
      ∃ r, deserialize s.cfg s.blockPort = .ok r ∧
        exec .decode s = .next { s with result := some (.msg (untransform s.cfg r)) })

/-- R166: with the Identity adapter ENCODE is serialize and DECODE is deserialize, errors included, and
KEY is not read. -/
def Obligations.IdentityAdapterIsPlainCodec : Prop :=
  ∀ (c : Config) (k : Byte), c.adapter = .identity →
    (∀ m, adapterEncode { c with key := k } m = serialize c m) ∧
    (∀ f, adapterDecode { c with key := k } f = deserialize c f)

/-- R167: KEY 0x00 is the Identity adapter, KEY 0xFF subtracts 1 on ENCODE, and every KEY maps the bytes
one to one. -/
def Obligations.AdditiveShiftConsequences : Prop :=
  (∀ c : Config, c.adapter = .additiveShift → c.key = 0x00 →
    (∀ m, adapterEncode c m = adapterEncode { c with adapter := .identity } m) ∧
    (∀ f, adapterDecode c f = adapterDecode { c with adapter := .identity } f)) ∧
  (∀ (c : Config) (b : Byte), c.adapter = .additiveShift → c.key = 0xFF → encByte c b = b - 1) ∧
  (∀ c : Config, Function.Bijective (encByte c) ∧ Function.Bijective (decByte c))

/-- R168: for every well-formed message, every adapter and every KEY, DECODE of ENCODE gives the message
back; the byte transforms are inverse both ways. -/
def Obligations.AdapterInverse : Prop :=
  (∀ (c : Config) (b : Byte), decByte c (encByte c b) = b ∧ encByte c (decByte c b) = b) ∧
  (∀ s : State, s.msgPort.wf s.cfg = true →
    ∃ f t u, exec .encode s = .next t ∧ t.result = some (.bytes f) ∧
      exec .decode { t with blockPort := f } = .next u ∧ u.result = some (.msg s.msgPort))

/-- R239: a frame encoded with one KEY and decoded with another raises no error; every payload byte comes
back shifted by the difference of the keys. -/
def Obligations.KeyMismatchShiftsPayload : Prop :=
  ∀ (c : Config) (k : Byte) (m : Message), c.adapter = .additiveShift → m.wf c = true →
    ∃ f, adapterEncode c m = .ok f ∧
      adapterDecode { c with key := k } f =
        .ok { m with payload := m.payload.map (fun b => b + (c.key - k)) }

/-- R169, R48: ENCODE and DECODE write nothing but their result and read only their operand and the
parameters: two states that agree on those get the same result. -/
def Obligations.EncodeDecodeArePure : Prop :=
  (∀ s t : State, (exec .encode s = .next t ∨ exec .decode s = .next t) → t = { s with result := t.result }) ∧
  (∀ s s' t : State, s'.cfg = s.cfg → s'.msgPort = s.msgPort → exec .encode s = .next t →
    exec .encode s' = .next { s' with result := t.result }) ∧
  (∀ s s' t : State, s'.cfg = s.cfg → s'.blockPort = s.blockPort → exec .decode s = .next t →
    exec .decode s' = .next { s' with result := t.result })

/-! ### Errors -/

/-- R201: the causes, their numbers, and exactly when each operation returns one; the causes 3 and 4 are
never returned. -/
def Obligations.CausesAndConditions : Prop :=
  (Cause.truncatedFrame.code = 1 ∧ Cause.payloadTooLarge.code = 2 ∧
    Cause.unrecognizedType.code = 3 ∧ Cause.desyncError.code = 4) ∧
  (∀ r : Result, r.code = 0 ↔ ∀ e, r ≠ .error e) ∧
  (∀ (b : Byte) (s t : State), exec (.feed b) s = .next t → ∀ e, t.result = some (.error e) ↔
    (e = .truncatedFrame ∧ s.rx.state = .accumulating ∧
      1 + s.rx.expectedLength.toNat ≤ s.rx.acc.length + 1 ∧ s.rx.acc.length + 1 < s.cfg.headerSize + 1)) ∧
  (∀ s t : State, exec .reset s = .next t → ∀ e, t.result ≠ some (.error e)) ∧
  (∀ s t : State, exec .encode s = .next t → ∀ e, t.result = some (.error e) ↔
    (e = .payloadTooLarge ∧ 255 < s.cfg.headerSize + s.msgPort.payload.length)) ∧
  (∀ s t : State, exec .decode s = .next t → ∀ e, t.result = some (.error e) ↔
    (e = .truncatedFrame ∧ s.blockPort.length < s.cfg.headerSize + 1))

/-- R206: a FEED that returns an error leaves the receiver reset; an ENCODE or DECODE that returns one
changes nothing but the result; the next FEED after a failed one is read as a length byte. -/
def Obligations.ErrorEffectOnState : Prop :=
  (∀ (b : Byte) (s t : State) (e : Cause), exec (.feed b) s = .next t → t.result = some (.error e) →
    t.rx = State.reset.rx ∧
    ∀ b' : Byte, exec (.feed b') t = .next { t with
      rx     := { state := .accumulating, acc := [b'], expectedLength := b' }
      result := some .nothing }) ∧
  (∀ (s t : State) (e : Cause), (exec .encode s = .next t ∨ exec .decode s = .next t) →
    t.result = some (.error e) → t = { s with result := some (.error e) })

/-- R207: an operand that is refused is refused also where it meets an error condition. -/
def Obligations.RefusalBeforeError : Prop :=
  (∀ s : State, s.msgPort.typeOk s.cfg = false → 255 < s.cfg.headerSize + s.msgPort.payload.length →
    ∃ r, exec .encode s = .refused r) ∧
  (∀ s : State, 256 < s.blockPort.length → exec .decode s = .refused (.blockTooLong s.blockPort.length))

/-! ### Whole-machine rules -/

/-- R24, R10, R27, R68: every step from a state that meets the invariant, reached from reset or not,
gives a state that meets it: the receiver's two clauses, the constraints on the parameters, and a
well-formed result. -/
def Obligations.StepKeepsInvariant : Prop :=
  ∀ s t : State, s.inv = true → step s = .next t → t.inv = true

/-- R22: in a state that meets the invariant the buffer holds at most 255 bytes between operations, so
no step runs past its 256 cells: a step never faults. -/
def Obligations.InvariantStateNeverFaults : Prop :=
  ∀ s : State, s.inv = true → s.rx.acc.length ≤ 255 ∧ ∀ e, step s ≠ .fault e

/-- R15, R17: from a state that meets the invariant every operation completes with exactly one result,
but for the two refusals of an operand: nothing hangs. -/
def Obligations.EveryOperationCompletes : Prop :=
  ∀ (i : Instr) (s : State), s.inv = true →
    (∃ t r, exec i s = .next t ∧ t.result = some r) ∨
    (i = .encode ∧ s.msgPort.typeOk s.cfg = false ∧ ∃ q, exec i s = .refused q) ∨
    (i = .decode ∧ 256 < s.blockPort.length ∧ ∃ q, exec i s = .refused q)

/-- R25: no step writes a parameter. -/
def Obligations.ParametersNeverWritten : Prop :=
  ∀ s t : State, step s = .next t → t.cfg = s.cfg

/-- R30: two receiver states that agree on rx.state and rx.acc cannot be told apart: after any number of
steps, whatever operations are issued, both have given the same result or stopped for the same reason, and
they still agree on everything but rx.expected_length. -/
def Obligations.ExpectedLengthIsHidden : Prop :=
  ∀ (k : Nat) (s t : State), s.inv = true → t.inv = true → s.sameButLength t →
    sameOutcomeButLength (Sys2Proof.core.run k s) (Sys2Proof.core.run k t)
end

