-- ==== Sys2Proof/Laws/State.lean ====
section
/-! SUPPORT. One lemma per field per update of the state, and what the shared operations of
Machine/Ops.lean can do. -/

namespace Sys2Proof.Machine

@[simp] theorem setRx_rx (s : State) (rx : Receiver) : (s.setRx rx).rx = rx := rfl
@[simp] theorem setRx_cfg (s : State) (rx : Receiver) : (s.setRx rx).cfg = s.cfg := rfl
@[simp] theorem setRx_msgPort (s : State) (rx : Receiver) : (s.setRx rx).msgPort = s.msgPort := rfl
@[simp] theorem setRx_blockPort (s : State) (rx : Receiver) : (s.setRx rx).blockPort = s.blockPort := rfl
@[simp] theorem setRx_result (s : State) (rx : Receiver) : (s.setRx rx).result = s.result := rfl
@[simp] theorem setRx_queue (s : State) (rx : Receiver) : (s.setRx rx).queue = s.queue := rfl

@[simp] theorem setResult_rx (s : State) (r : Result) : (s.setResult r).rx = s.rx := rfl
@[simp] theorem setResult_cfg (s : State) (r : Result) : (s.setResult r).cfg = s.cfg := rfl
@[simp] theorem setResult_msgPort (s : State) (r : Result) : (s.setResult r).msgPort = s.msgPort := rfl
@[simp] theorem setResult_blockPort (s : State) (r : Result) : (s.setResult r).blockPort = s.blockPort := rfl
@[simp] theorem setResult_result (s : State) (r : Result) : (s.setResult r).result = some r := rfl
@[simp] theorem setResult_queue (s : State) (r : Result) : (s.setResult r).queue = s.queue := rfl

@[simp] theorem drive_rx (s : State) (r : Request) (q : List Request) : (s.drive r q).rx = s.rx := rfl
@[simp] theorem drive_cfg (s : State) (r : Request) (q : List Request) : (s.drive r q).cfg = s.cfg := rfl
@[simp] theorem drive_msgPort (s : State) (r : Request) (q : List Request) :
    (s.drive r q).msgPort = r.msg.getD s.msgPort := rfl
@[simp] theorem drive_blockPort (s : State) (r : Request) (q : List Request) :
    (s.drive r q).blockPort = r.block.getD s.blockPort := rfl
@[simp] theorem drive_result (s : State) (r : Request) (q : List Request) :
    (s.drive r q).result = s.result := rfl
@[simp] theorem drive_queue (s : State) (r : Request) (q : List Request) : (s.drive r q).queue = q := rfl

@[simp] theorem doReset_eq (rx : Receiver) : rx.doReset = Receiver.fresh := rfl

theorem finish_eq (r : Result) (s : State) : finish r s = .next (s.setResult r) := rfl

theorem raise_eq (e : Cause) (s : State) : raise e s = .next (s.setResult (.error e)) := rfl

/-- The result of an operation is the only thing `finish` writes. -/
theorem finish_inj {r : Result} {s t : State} (h : finish r s = .next t) : t = s.setResult r := by
  cases h; rfl

/-- An append succeeds exactly while a cell is left, and then adds one byte at the end. -/
theorem memWrite_ok {rx rx' : Receiver} {b : Byte} (h : rx.memWrite b = .ok rx') :
    rx.acc.length < 256 ∧ rx' = { rx with acc := rx.acc ++ [b] } := by
  unfold Receiver.memWrite at h
  split at h
  · cases h; exact ⟨by assumption, rfl⟩
  · cases h

theorem memWrite_of_lt {rx : Receiver} (b : Byte) (h : rx.acc.length < 256) :
    rx.memWrite b = .ok { rx with acc := rx.acc ++ [b] } := if_pos h

/-- The whole buffer, read through `MemRead(0, |rx.acc|)`, is the buffer (R42). -/
theorem memRead_all (rx : Receiver) : rx.memRead 0 rx.acc.length = some rx.acc := by
  simp [Receiver.memRead]

theorem frameComplete_iff (rx : Receiver) :
    rx.frameComplete = true ↔ 1 + rx.expectedLength.toNat ≤ rx.acc.length := by
  simp [Receiver.frameComplete]

theorem issue_nil {s : State} (h : s.queue = []) : issue s = none := by
  simp [issue, h]

theorem issue_cons {s : State} {r : Request} {q : List Request} (h : s.queue = r :: q) :
    issue s = some (r.cmd, s.drive r q) := by
  simp [issue, h]

/-- Presenting a word and issuing it gives the state back. -/
theorem issue_present (cmd : CmdWord) (s : State) : issue (present cmd s) = some (cmd, s) := rfl

end Sys2Proof.Machine
end

