-- ==== Sys2Proof/Laws/Codec.lean ====
section
/-! SUPPORT. The codec: what each function can answer, and the inverse laws of its fields. -/

namespace Sys2Proof.Machine

theorem headerSize_typeTagged {c : Config} (h : c.variant = .typeTagged) : c.headerSize = 5 := by
  simp [Config.headerSize, h]

theorem headerSize_indexOnly {c : Config} (h : c.variant = .indexOnly) : c.headerSize = 4 := by
  simp [Config.headerSize, h]

theorem headerSize_bounds (c : Config) : 4 ≤ c.headerSize ∧ c.headerSize ≤ 5 := by
  unfold Config.headerSize; split <;> simp

theorem maxPayload_eq (c : Config) : c.maxPayload = 255 - c.headerSize := rfl

theorem isKnown_iff (c : Config) (t : Byte) : c.isKnown t = true ↔ t ∈ c.knownTypes := by
  simp [Config.isKnown]

theorem isTypeCode_iff (c : Config) (t : Byte) :
    c.isTypeCode t = true ↔ t ∈ c.knownTypes ∨ t = 0xFF := by
  simp [Config.isTypeCode, isKnown_iff, typeUndefined]

/-- Coercion always gives a type code (R66). -/
theorem isTypeCode_coerce (c : Config) (t : Byte) : c.isTypeCode (c.coerce t) = true := by
  unfold Config.coerce; split <;> simp_all [Config.isTypeCode]

/-- Coercion changes exactly the bytes that are not type codes. -/
theorem coerce_eq_self_iff (c : Config) (t : Byte) : c.coerce t = t ↔ c.isTypeCode t = true := by
  cases h : c.isKnown t <;>
    simp only [Config.coerce, Config.isTypeCode, h, Bool.false_or, Bool.true_or, beq_iff_eq,
      Bool.false_eq_true, if_true, if_false]
  exact eq_comm

/-- Two byte strings appended, as a number. -/
theorem toNat_append_add {m n : Nat} (x : BitVec m) (y : BitVec n) :
    (x ++ y).toNat = x.toNat * 2 ^ n + y.toNat := by
  rw [BitVec.toNat_append, ← Nat.shiftLeft_add_eq_or_of_lt y.isLt, Nat.shiftLeft_eq]

/-- An index as a number (R64). -/
theorem toNat_indexOfBytes (b3 b2 b1 b0 : Byte) :
    (indexOfBytes b3 b2 b1 b0).toNat =
      b3.toNat * 2 ^ 24 + b2.toNat * 2 ^ 16 + b1.toNat * 2 ^ 8 + b0.toNat := by
  have h : (indexOfBytes b3 b2 b1 b0).toNat = (b3 ++ b2 ++ b1 ++ b0).toNat := rfl
  rw [h, toNat_append_add, toNat_append_add, toNat_append_add]
  omega

/-- A byte of an index as a number (R64). -/
theorem toNat_indexByte (i : Index) (k : Nat) :
    (i.extractLsb' k 8).toNat = i.toNat / 2 ^ k % 256 := by
  rw [BitVec.extractLsb'_toNat, Nat.shiftRight_eq_div_pow]

/-- The four bytes of an index make it up again (R64). -/
theorem indexOfBytes_indexBytes (i : Index) :
    indexOfBytes (i.extractLsb' 24 8) (i.extractLsb' 16 8) (i.extractLsb' 8 8) (i.extractLsb' 0 8) = i := by
  apply BitVec.eq_of_toNat_eq
  have hi := i.isLt
  simp only [toNat_indexOfBytes, toNat_indexByte]
  omega

/-- The bytes of an index made of four bytes are those bytes (R64). -/
theorem indexBytes_indexOfBytes (b3 b2 b1 b0 : Byte) :
    indexBytes (indexOfBytes b3 b2 b1 b0) = [b3, b2, b1, b0] := by
  have h3 := b3.isLt
  have h2 := b2.isLt
  have h1 := b1.isLt
  have h0 := b0.isLt
  unfold indexBytes
  congr 1
  · apply BitVec.eq_of_toNat_eq; rw [toNat_indexByte, toNat_indexOfBytes]; omega
  congr 1
  · apply BitVec.eq_of_toNat_eq; rw [toNat_indexByte, toNat_indexOfBytes]; omega
  congr 1
  · apply BitVec.eq_of_toNat_eq; rw [toNat_indexByte, toNat_indexOfBytes]; omega
  congr 1
  · apply BitVec.eq_of_toNat_eq; rw [toNat_indexByte, toNat_indexOfBytes]; omega

/-- serialize of a payload that fits: the frame (R101). -/
theorem serialize_fits {c : Config} {m : Message} (h : c.headerSize + m.payload.length ≤ 255) :
    serialize c m = .ok (BitVec.ofNat 8 (c.headerSize + m.payload.length) ::
      (typeField c m ++ indexBytes m.index ++ m.payload)) :=
  if_neg (by simp only [maxFrameLength]; omega)

/-- serialize of a payload that does not fit: no bytes (R102). -/
theorem serialize_too_large {c : Config} {m : Message} (h : 255 < c.headerSize + m.payload.length) :
    serialize c m = .error .payloadTooLarge := if_pos h

/-- Everything serialize can answer (R101, R102). -/
theorem serialize_cases (c : Config) (m : Message) :
    (255 < c.headerSize + m.payload.length ∧ serialize c m = .error .payloadTooLarge) ∨
    (c.headerSize + m.payload.length ≤ 255 ∧ serialize c m =
      .ok (BitVec.ofNat 8 (c.headerSize + m.payload.length) ::
        (typeField c m ++ indexBytes m.index ++ m.payload))) := by
  by_cases h : 255 < c.headerSize + m.payload.length
  · exact .inl ⟨h, serialize_too_large h⟩
  · exact .inr ⟨by omega, serialize_fits (by omega)⟩

/-- A message whose type fits the variant, in the two forms it can have (R27). -/
theorem typeOk_cases {c : Config} {m : Message} (h : m.typeOk c = true) :
    (c.variant = .typeTagged ∧ ∃ t, m.type = some t ∧ c.isTypeCode t = true) ∨
    (c.variant = .indexOnly ∧ m.type = none) := by
  unfold Message.typeOk at h
  split at h <;> simp_all

/-- The type field of a well-typed message fills the header up to the index (R62, R63). -/
theorem typeField_length {c : Config} {m : Message} (h : m.typeOk c = true) :
    (typeField c m).length = c.headerSize - 4 := by
  obtain ⟨hv, t, ht, -⟩ | ⟨hv, ht⟩ := typeOk_cases h <;>
    simp [typeField, Config.headerSize, hv, ht]

theorem wf_iff (c : Config) (m : Message) :
    m.wf c = true ↔ m.typeOk c = true ∧ c.headerSize + m.payload.length ≤ 255 := by
  have := headerSize_bounds c
  rw [Message.wf, Bool.and_eq_true, decide_eq_true_iff, maxPayload_eq]
  constructor <;> rintro ⟨h, h'⟩ <;> exact ⟨h, by omega⟩

theorem deserialize_typeTagged {c : Config} (h : c.variant = .typeTagged)
    (l t b3 b2 b1 b0 : Byte) (p : List Byte) :
    deserialize c (l :: t :: b3 :: b2 :: b1 :: b0 :: p) =
      .ok { index := indexOfBytes b3 b2 b1 b0, type := some (c.coerce t), payload := p } := by
  simp [deserialize, h]

theorem deserialize_indexOnly {c : Config} (h : c.variant = .indexOnly)
    (l b3 b2 b1 b0 : Byte) (p : List Byte) :
    deserialize c (l :: b3 :: b2 :: b1 :: b0 :: p) =
      .ok { index := indexOfBytes b3 b2 b1 b0, type := none, payload := p } := by
  simp [deserialize, h]

/-- Everything deserialize can answer: an error on fewer than H + 1 bytes, and otherwise the fields
of the layout of the variant (R62, R63, R105, R106). -/
theorem deserialize_cases (c : Config) (f : List Byte) :
    (f.length < c.headerSize + 1 ∧ deserialize c f = .error .truncatedFrame) ∨
    (c.variant = .typeTagged ∧ ∃ l t b3 b2 b1 b0 p, f = l :: t :: b3 :: b2 :: b1 :: b0 :: p ∧
      deserialize c f =
        .ok { index := indexOfBytes b3 b2 b1 b0, type := some (c.coerce t), payload := p }) ∨
    (c.variant = .indexOnly ∧ ∃ l b3 b2 b1 b0 p, f = l :: b3 :: b2 :: b1 :: b0 :: p ∧
      deserialize c f =
        .ok { index := indexOfBytes b3 b2 b1 b0, type := none, payload := p }) := by
  cases hv : c.variant with
  | typeTagged =>
    match f with
    | l :: t :: b3 :: b2 :: b1 :: b0 :: p =>
      exact .inr (.inl ⟨rfl, l, t, b3, b2, b1, b0, p, rfl, deserialize_typeTagged hv ..⟩)
    | [] | [_] | [_, _] | [_, _, _] | [_, _, _, _] | [_, _, _, _, _] =>
      exact .inl ⟨by simp [headerSize_typeTagged hv], by simp [deserialize, hv]⟩
  | indexOnly =>
    match f with
    | l :: b3 :: b2 :: b1 :: b0 :: p =>
      exact .inr (.inr ⟨rfl, l, b3, b2, b1, b0, p, rfl, deserialize_indexOnly hv ..⟩)
    | [] | [_] | [_, _] | [_, _, _] | [_, _, _, _] =>
      exact .inl ⟨by simp [headerSize_indexOnly hv], by simp [deserialize, hv]⟩

/-- The length of a payload that deserialize gives, and the shape of its type. -/
theorem deserialize_ok {c : Config} {f : List Byte} {m : Message} (h : deserialize c f = .ok m) :
    m.typeOk c = true ∧ f.length = c.headerSize + 1 + m.payload.length := by
  obtain ⟨-, h'⟩ | ⟨hv, l, t, b3, b2, b1, b0, p, rfl, h'⟩ | ⟨hv, l, b3, b2, b1, b0, p, rfl, h'⟩ :=
    deserialize_cases c f <;> rw [h'] at h <;> cases h
  · exact ⟨by simp [Message.typeOk, hv, isTypeCode_coerce], by simp [headerSize_typeTagged hv]; omega⟩
  · exact ⟨by simp [Message.typeOk, hv], by simp [headerSize_indexOnly hv]; omega⟩

theorem deserialize_error {c : Config} {f : List Byte} {e : Cause} (h : deserialize c f = .error e) :
    e = .truncatedFrame ∧ f.length < c.headerSize + 1 := by
  obtain ⟨hl, h'⟩ | ⟨hv, l, t, b3, b2, b1, b0, p, rfl, h'⟩ | ⟨hv, l, b3, b2, b1, b0, p, rfl, h'⟩ :=
    deserialize_cases c f <;> rw [h'] at h <;> cases h
  exact ⟨rfl, hl⟩

end Sys2Proof.Machine
end

