-- ==== Sys2Proof/Laws/Adapter.lean ====
section
/-! SUPPORT. The adapter: the byte transforms are inverse, the message transforms touch the payload
only, and everything ENCODE and DECODE can do. -/

namespace Sys2Proof.Machine

@[simp] theorem transform_index (c : Config) (m : Message) : (transform c m).index = m.index := rfl
@[simp] theorem transform_type (c : Config) (m : Message) : (transform c m).type = m.type := rfl
@[simp] theorem transform_payload (c : Config) (m : Message) :
    (transform c m).payload = m.payload.map (encByte c) := rfl
@[simp] theorem untransform_index (c : Config) (m : Message) : (untransform c m).index = m.index := rfl
@[simp] theorem untransform_type (c : Config) (m : Message) : (untransform c m).type = m.type := rfl
@[simp] theorem untransform_payload (c : Config) (m : Message) :
    (untransform c m).payload = m.payload.map (decByte c) := rfl

theorem decByte_encByte (c : Config) (b : Byte) : decByte c (encByte c b) = b := by
  unfold decByte encByte
  cases c.adapter
  · rfl
  · exact BitVec.add_sub_cancel b c.key

theorem encByte_decByte (c : Config) (b : Byte) : encByte c (decByte c b) = b := by
  unfold decByte encByte
  cases c.adapter
  · rfl
  · exact BitVec.sub_add_cancel b c.key

/-- With the Identity adapter the message transforms do nothing (R166). -/
theorem transform_identity {c : Config} (h : c.adapter = .identity) (m : Message) :
    transform c m = m := by
  have : encByte c = id := funext fun b => by simp [encByte, h]
  simp [transform, this]

theorem untransform_identity {c : Config} (h : c.adapter = .identity) (m : Message) :
    untransform c m = m := by
  have : decByte c = id := funext fun b => by simp [decByte, h]
  simp [untransform, this]

/-- The inverse transform undoes the transform (R168). -/
theorem untransform_transform (c : Config) (m : Message) : untransform c (transform c m) = m := by
  cases m
  simp [untransform, transform, Function.comp_def, decByte_encByte]

/-- The transforms leave the type check as it was. -/
theorem typeOk_transform (c : Config) (m : Message) : (transform c m).typeOk c = m.typeOk c := rfl

theorem typeOk_untransform (c : Config) (m : Message) : (untransform c m).typeOk c = m.typeOk c := rfl

theorem wf_transform (c : Config) (m : Message) : (transform c m).wf c = m.wf c := by
  simp [Message.wf, typeOk_transform]

theorem wf_untransform (c : Config) (m : Message) : (untransform c m).wf c = m.wf c := by
  simp [Message.wf, typeOk_untransform]

/-- ENCODE's operand check is the message's type check (R164). -/
theorem messageRefusal_none_iff (c : Config) (m : Message) :
    messageRefusal c m = none ↔ m.typeOk c = true := by
  unfold messageRefusal Message.typeOk
  cases c.variant <;> cases m.type <;> simp

/-- A refused message is not a reserved command word. -/
theorem messageRefusal_ne_reserved (c : Config) (m : Message) (e : DecodeError) :
    messageRefusal c m ≠ some (.reservedCommand e) := by
  unfold messageRefusal
  repeat' split
  all_goals nofun

theorem readMessage_ok {s : State} (h : s.msgPort.typeOk s.cfg = true) :
    readMessage s = .ok s.msgPort := by
  simp [readMessage, (messageRefusal_none_iff _ _).2 h]

theorem readMessage_refused {s : State} (h : s.msgPort.typeOk s.cfg = false) :
    ∃ r, messageRefusal s.cfg s.msgPort = some r ∧ readMessage s = .error r := by
  unfold readMessage
  cases h' : messageRefusal s.cfg s.msgPort with
  | some r => exact ⟨r, rfl, rfl⟩
  | none   => rw [messageRefusal_none_iff, h] at h'; cases h'

/-- Everything ENCODE can do (R164). -/
theorem execEncode_cases (s : State) :
    (s.msgPort.typeOk s.cfg = false ∧
      ∃ r, messageRefusal s.cfg s.msgPort = some r ∧ execEncode s = .refused r) ∨
    (s.msgPort.typeOk s.cfg = true ∧ 255 < s.cfg.headerSize + s.msgPort.payload.length ∧
      execEncode s = .next (s.setResult (.error .payloadTooLarge))) ∨
    (s.msgPort.typeOk s.cfg = true ∧ s.cfg.headerSize + s.msgPort.payload.length ≤ 255 ∧
      ∃ f, serialize s.cfg (transform s.cfg s.msgPort) = .ok f ∧
        execEncode s = .next (s.setResult (.bytes f))) := by
  cases h : s.msgPort.typeOk s.cfg with
  | false =>
    obtain ⟨r, hm, hr⟩ := readMessage_refused h
    exact .inl ⟨rfl, r, hm, by simp [execEncode, hr]⟩
  | true =>
    obtain ⟨hl, hs⟩ | ⟨hl, hs⟩ := serialize_cases s.cfg (transform s.cfg s.msgPort) <;>
      simp only [transform_payload, List.length_map] at hl
    · exact .inr (.inl ⟨rfl, hl, by simp [execEncode, readMessage_ok h, adapterEncode, hs, raise_eq]⟩)
    · exact .inr (.inr ⟨rfl, hl, _, hs, by simp [execEncode, readMessage_ok h, adapterEncode, hs, finish_eq]⟩)

/-- Everything DECODE can do (R165). -/
theorem execDecode_cases (s : State) :
    (256 < s.blockPort.length ∧ execDecode s = .refused (.blockTooLong s.blockPort.length)) ∨
    (s.blockPort.length < s.cfg.headerSize + 1 ∧
      execDecode s = .next (s.setResult (.error .truncatedFrame))) ∨
    (s.blockPort.length ≤ 256 ∧ ∃ m, deserialize s.cfg s.blockPort = .ok m ∧
      execDecode s = .next (s.setResult (.msg (untransform s.cfg m)))) := by
  have hb := headerSize_bounds s.cfg
  by_cases h : s.blockPort.length ≤ 256
  · have hr : readBlock s = .ok s.blockPort := if_pos h
    cases hd : deserialize s.cfg s.blockPort with
    | error e =>
      obtain ⟨rfl, hl⟩ := deserialize_error hd
      exact .inr (.inl ⟨hl, by simp [execDecode, hr, adapterDecode, hd, raise_eq]⟩)
    | ok m => exact .inr (.inr ⟨h, m, rfl, by simp [execDecode, hr, adapterDecode, hd, finish_eq]⟩)
  · have hr : readBlock s = .error (.blockTooLong s.blockPort.length) := if_neg h
    exact .inl ⟨by omega, by simp [execDecode, hr]⟩

end Sys2Proof.Machine
end

