-- ==== Sys2Proof/Laws/Decode.lean ====
section
/-! SUPPORT. The decoder: which words each row of the opcode map covers, and everything the decoder
can answer. -/

namespace Sys2Proof

/-- A word is its opcode followed by its imm8 (R71). -/
theorem fields_append (w : CmdWord) : opcodeField w ++ imm8Field w = w := by
  apply BitVec.eq_of_toNat_eq
  have := w.isLt
  rw [BitVec.toNat_append, ← Nat.shiftLeft_add_eq_or_of_lt (imm8Field w).isLt, Nat.shiftLeft_eq]
  simp only [opcodeField, imm8Field, BitVec.extractLsb'_toNat, Nat.shiftRight_eq_div_pow]
  omega

theorem toNat_opcodeField (w : CmdWord) : (opcodeField w).toNat = w.toNat / 256 := by
  have := w.isLt
  simp only [opcodeField, BitVec.extractLsb'_toNat, Nat.shiftRight_eq_div_pow]
  omega

theorem toNat_imm8Field (w : CmdWord) : (imm8Field w).toNat = w.toNat % 256 := by
  simp only [imm8Field, BitVec.extractLsb'_toNat, Nat.shiftRight_eq_div_pow]
  omega

/-- The bits of FEED's mask. -/
theorem getLsbD_FF00 {k : Nat} (hk : k < 16) : (0xFF00#16).getLsbD k = decide (8 ≤ k) :=
  (by decide : ∀ k : Fin 16, (0xFF00#16).getLsbD k = decide (8 ≤ k.val)) ⟨k, hk⟩

/-- The mask of FEED keeps the opcode (R72). -/
theorem and_FF00 (w : CmdWord) : w &&& 0xFF00 = opcodeField w ++ (0 : Byte) := by
  apply BitVec.eq_of_getLsbD_eq
  intro k hk
  have hm := getLsbD_FF00 hk
  rw [opcodeField, BitVec.getLsbD_and, BitVec.getLsbD_append, BitVec.getLsbD_extractLsb']
  erw [hm]
  rcases Nat.lt_or_ge k 8 with h | h
  · simp [h, show ¬ 8 ≤ k by omega]
  · simp [h, show ¬ k < 8 by omega, show k - 8 < 8 by omega, show 8 + (k - 8) = k by omega]

/-- The row of FEED covers a word exactly when its opcode is 0x01 (R72). -/
theorem and_FF00_eq_iff (w : CmdWord) : w &&& 0xFF00 = 0x0100 ↔ w.toNat / 256 = 1 := by
  rw [and_FF00, ← toNat_opcodeField]
  constructor
  · intro h
    have h' := congrArg BitVec.toNat h
    rw [BitVec.toNat_append] at h'
    simp [Nat.shiftLeft_eq] at h'
    omega
  · intro h
    rw [show opcodeField w = 0x01 from BitVec.eq_of_toNat_eq h]
    rfl

theorem and_FFFF (w : CmdWord) : w &&& 0xFFFF = w := BitVec.and_allOnes (x := w)

/-- Everything the decoder can answer, by opcode and imm8 (R72, R74). -/
theorem decode_cases (w : CmdWord) :
    (w.toNat / 256 = 1 ∧ decode w = .ok (.feed (imm8Field w))) ∨
    (w = 0x0200 ∧ decode w = .ok .reset) ∨
    (w = 0x0300 ∧ decode w = .ok .encode) ∨
    (w = 0x0400 ∧ decode w = .ok .decode) ∨
    (w.toNat / 256 ≠ 1 ∧ w ≠ 0x0200 ∧ w ≠ 0x0300 ∧ w ≠ 0x0400 ∧
      decode w = .error (reservedWord w)) := by
  by_cases h1 : w.toNat / 256 = 1
  · refine .inl ⟨h1, ?_⟩
    have hc : OpcodeRow.covers { mask := 0xFF00, value := 0x0100, sample := .feed 0x00 } w = true := by
      simpa [OpcodeRow.covers] using (and_FF00_eq_iff w).2 h1
    simp only [decode, opcodeMap, List.find?_cons, hc, Instr.withImm8]
  · by_cases h2 : w = 0x0200
    · subst h2; exact .inr (.inl ⟨rfl, rfl⟩)
    by_cases h3 : w = 0x0300
    · subst h3; exact .inr (.inr (.inl ⟨rfl, rfl⟩))
    by_cases h4 : w = 0x0400
    · subst h4; exact .inr (.inr (.inr (.inl ⟨rfl, rfl⟩)))
    refine .inr (.inr (.inr (.inr ⟨h1, h2, h3, h4, ?_⟩)))
    have hc : OpcodeRow.covers { mask := 0xFF00, value := 0x0100, sample := .feed 0x00 } w = false := by
      have := (and_FF00_eq_iff w).not.2 h1
      simpa [OpcodeRow.covers] using this
    have hf (v : CmdWord) (i : Instr) (hv : w ≠ v) :
        OpcodeRow.covers { mask := 0xFFFF, value := v, sample := i } w = false := by
      have := and_FFFF w
      simp only [OpcodeRow.covers, this]
      simpa using hv
    simp only [decode, opcodeMap, List.find?_cons, List.find?_nil, hc, hf _ _ h2, hf _ _ h3, hf _ _ h4]

end Sys2Proof
end

