-- ==== Sys2Proof/Laws/PerInstr.lean ====
section
/-! SUPPORT. Statements about every operation as syntax: `RowCovers` says that the word the encoder
gives an operation is covered by the opcode map's row with that operation's mnemonic (R72). -/

namespace Sys2Proof.Laws.RowCovers

/-- The row of the operation's mnemonic is in the opcode map and covers the operation's word. -/
def Statement (i : Instr) : Prop :=
  ∃ r ∈ opcodeMap, r.sample.mnemonic = i.mnemonic ∧ r.covers (Sys2Proof.encode i) = true

theorem feed (b : Byte) : Statement (.feed b) := by
  refine ⟨{ mask := 0xFF00, value := 0x0100, sample := .feed 0x00 }, by simp [opcodeMap], rfl, ?_⟩
  revert b; decide

theorem reset : Statement .reset :=
  ⟨{ mask := 0xFFFF, value := 0x0200, sample := .reset }, by simp [opcodeMap], rfl, by decide⟩

theorem encode : Statement .encode :=
  ⟨{ mask := 0xFFFF, value := 0x0300, sample := .encode }, by simp [opcodeMap], rfl, by decide⟩

theorem decode : Statement .decode :=
  ⟨{ mask := 0xFFFF, value := 0x0400, sample := .decode }, by simp [opcodeMap], rfl, by decide⟩

end Sys2Proof.Laws.RowCovers
end

