-- ==== Sys2Proof/Laws/Receive.lean ====
section
/-! SUPPORT. The receiver: everything FEED can do, and how a run of FEEDs unfolds. -/

namespace Sys2Proof.Machine

/-- FEED in AwaitingLength, with a cell left (R131). -/
theorem execFeed_length {s : State} (b : Byte) (h : s.rx.state = .awaitingLength)
    (hl : s.rx.acc.length < 256) :
    execFeed b s = .next ((s.setRx { state := .accumulating, acc := s.rx.acc ++ [b], expectedLength := b }).setResult
      .nothing) := by
  simp [execFeed, h, feedLength, memWrite_of_lt b hl, finish_eq]

/-- FEED in Accumulating below the count (R132). -/
theorem execFeed_below {s : State} (b : Byte) (h : s.rx.state = .accumulating)
    (hc : s.rx.acc.length < s.rx.expectedLength.toNat) :
    execFeed b s = .next ((s.setRx
      { state := .accumulating, acc := s.rx.acc ++ [b], expectedLength := s.rx.expectedLength }).setResult
      .nothing) := by
  have hb := s.rx.expectedLength.isLt
  have hn : Receiver.frameComplete { s.rx with acc := s.rx.acc ++ [b] } = false := by
    simp [Receiver.frameComplete]; omega
  simp only [execFeed, h, feedAccumulate, memWrite_of_lt b (show s.rx.acc.length < 256 by omega)]
  rw [if_neg (by rw [← h, hn]; decide)]
  rfl

/-- FEED in Accumulating that reaches the count (R133, R134). -/
theorem execFeed_complete {s : State} (b : Byte) (h : s.rx.state = .accumulating)
    (hl : s.rx.acc.length < 256) (hc : s.rx.expectedLength.toNat ≤ s.rx.acc.length) :
    execFeed b s = .next ((s.setRx Receiver.fresh).setResult (frameResult s.cfg (s.rx.acc ++ [b]))) := by
  have hn : Receiver.frameComplete { s.rx with acc := s.rx.acc ++ [b] } = true := by
    simp [Receiver.frameComplete]; omega
  simp only [execFeed, h, feedAccumulate, memWrite_of_lt b hl]
  rw [if_pos (by rw [← h, hn])]
  rfl

/-- FEED with no cell left (R22; log entry 5). -/
theorem execFeed_full {s : State} (b : Byte) (hl : 256 ≤ s.rx.acc.length) :
    execFeed b s = .fault .bufferFull := by
  have hm : s.rx.memWrite b = .error .bufferFull := if_neg (by simp only [bufDepth]; omega)
  unfold execFeed
  cases s.rx.state <;> simp [feedLength, feedAccumulate, hm]

/-- Everything FEED can do (R130). -/
theorem execFeed_cases (b : Byte) (s : State) :
    (256 ≤ s.rx.acc.length ∧ execFeed b s = .fault .bufferFull) ∨
    (s.rx.state = .awaitingLength ∧ s.rx.acc.length < 256 ∧ execFeed b s = .next ((s.setRx
      { state := .accumulating, acc := s.rx.acc ++ [b], expectedLength := b }).setResult .nothing)) ∨
    (s.rx.state = .accumulating ∧ s.rx.acc.length < s.rx.expectedLength.toNat ∧
      execFeed b s = .next ((s.setRx
        { state := .accumulating, acc := s.rx.acc ++ [b], expectedLength := s.rx.expectedLength }).setResult
        .nothing)) ∨
    (s.rx.state = .accumulating ∧ s.rx.acc.length < 256 ∧ s.rx.expectedLength.toNat ≤ s.rx.acc.length ∧
      execFeed b s = .next ((s.setRx Receiver.fresh).setResult (frameResult s.cfg (s.rx.acc ++ [b])))) := by
  by_cases hl : s.rx.acc.length < 256
  · cases h : s.rx.state with
    | awaitingLength => exact .inr (.inl ⟨rfl, hl, execFeed_length b h hl⟩)
    | accumulating =>
      by_cases hc : s.rx.acc.length < s.rx.expectedLength.toNat
      · exact .inr (.inr (.inl ⟨rfl, hc, execFeed_below b h hc⟩))
      · exact .inr (.inr (.inr ⟨rfl, hl, by omega, execFeed_complete b h hl (by omega)⟩))
  · exact .inl ⟨by omega, execFeed_full b (by omega)⟩

/-- Everything RESET can do (R138). -/
theorem execReset_eq (s : State) :
    execReset s = .next ((s.setRx Receiver.fresh).setResult .nothing) := rfl

/-- The result of a completed frame, by whether it holds a header (R133, R134). -/
theorem frameResult_cases (c : Config) (f : List Byte) :
    (f.length < c.headerSize + 1 ∧ frameResult c f = .error .truncatedFrame) ∨
    (c.headerSize + 1 ≤ f.length ∧ ∃ raw, deserialize c f = .ok raw ∧
      frameResult c f = .frame raw (untransform c raw)) := by
  cases h : deserialize c f with
  | error e =>
    obtain ⟨rfl, hl⟩ := deserialize_error h
    exact .inl ⟨hl, by simp [frameResult, h]⟩
  | ok raw =>
    have hl := (deserialize_ok h).2
    exact .inr ⟨by omega, raw, rfl, by simp [frameResult, h]⟩

/-- A run of FEEDs, one byte at a time (R76). -/
theorem runFeeds_cons {s t : State} {b : Byte} {r : Result} (bs : List Byte)
    (h : execFeed b s = .next t) (hr : t.result = some r) :
    runFeeds (b :: bs) s = (runFeeds bs t).map (fun p => (r :: p.1, p.2)) := by
  rw [runFeeds, show exec (.feed b) s = execFeed b s from rfl, h]
  simp only [hr]
  cases runFeeds bs t <;> rfl

theorem runFeeds_nil (s : State) : runFeeds [] s = some ([], s) := rfl

/-- A run of FEEDs over two parts is the run of the first, then of the second. -/
theorem runFeeds_append (as bs : List Byte) (s : State) :
    runFeeds (as ++ bs) s =
      (runFeeds as s).bind (fun p => (runFeeds bs p.2).map (fun q => (p.1 ++ q.1, q.2))) := by
  induction as generalizing s with
  | nil => simp [runFeeds]
  | cons a as ih =>
    simp only [List.cons_append, runFeeds]
    split
    · rename_i t _
      rw [ih]
      cases t.result with
      | none   => rfl
      | some r =>
        cases runFeeds as t with
        | none   => rfl
        | some p => simp only [Option.bind_some]; cases runFeeds bs p.2 <;> rfl
    · rfl
    · rfl

end Sys2Proof.Machine
end

