-- ==== Sys2Proof/Laws/Step.lean ====
section
/-! SUPPORT. Everything a step can do. -/

namespace Sys2Proof.Machine

/-- No operation is refused as a reserved word: only the decoder rejects those (R74). -/
theorem exec_ne_reserved (i : Instr) (s : State) (e : DecodeError) :
    exec i s ≠ .refused (.reservedCommand e) := by
  intro h
  cases i with
  | feed b =>
    change execFeed b s = _ at h
    obtain ⟨_, h'⟩ | ⟨_, _, h'⟩ | ⟨_, _, h'⟩ | ⟨_, _, _, h'⟩ := execFeed_cases b s <;>
      rw [h'] at h <;> cases h
  | reset => cases h
  | encode =>
    change execEncode s = _ at h
    obtain ⟨_, r, hm, h'⟩ | ⟨_, _, h'⟩ | ⟨_, _, f, _, h'⟩ := execEncode_cases s <;>
      rw [h'] at h <;> cases h
    exact messageRefusal_ne_reserved _ _ _ hm
  | decode =>
    change execDecode s = _ at h
    obtain ⟨_, h'⟩ | ⟨_, h'⟩ | ⟨_, m, _, h'⟩ := execDecode_cases s <;> rw [h'] at h <;> cases h

/-- Everything a step can do: wait, refuse a reserved word, or run the operation issued (R15, R74). -/
theorem step_cases (s : State) :
    (s.queue = [] ∧ step s = .next s) ∨
    (∃ r q e, s.queue = r :: q ∧ decode r.cmd = .error e ∧ step s = .refused (.reservedCommand e)) ∨
    (∃ r q i, s.queue = r :: q ∧ decode r.cmd = .ok i ∧ step s = exec i (s.drive r q)) := by
  cases h : s.queue with
  | nil => exact .inl ⟨rfl, by simp [step, issue_nil h, idle]⟩
  | cons r q =>
    cases hd : decode r.cmd with
    | error e => exact .inr (.inl ⟨r, q, e, rfl, hd, by simp [step, issue_cons h, hd]⟩)
    | ok i => exact .inr (.inr ⟨r, q, i, rfl, hd, by simp [step, issue_cons h, hd]⟩)

/-- A run of the core whose first step goes on. -/
theorem run_next {s t : State} (k : Nat) (h : step s = .next t) :
    Sys2Proof.core.run (k + 1) s = Sys2Proof.core.run k t := by
  have h' : Sys2Proof.core.step s = .next t := h
  rw [Host.Core.run.eq_2 Sys2Proof.core s k, h']

/-- A run of the core whose first step is refused. -/
theorem run_refused {s : State} {r : Refusal} (k : Nat) (h : step s = .refused r) :
    Sys2Proof.core.run (k + 1) s = .refused r := by
  have h' : Sys2Proof.core.step s = .refused r := h
  rw [Host.Core.run.eq_2 Sys2Proof.core s k, h']

/-- A run of the core whose first step faults. -/
theorem run_fault {s : State} {e : Fault} (k : Nat) (h : step s = .fault e) :
    Sys2Proof.core.run (k + 1) s = .fault e := by
  have h' : Sys2Proof.core.step s = .fault e := h
  rw [Host.Core.run.eq_2 Sys2Proof.core s k, h']

/-- Issuing an operation leaves the invariant as it was: the ports and the queue are not in it. -/
theorem inv_drive (s : State) (r : Request) (q : List Request) : (s.drive r q).inv = s.inv := rfl

/-- The parts of the invariant (R10, R24). -/
theorem inv_iff (s : State) : s.inv = true ↔
    s.cfg.wf = true ∧ s.rx.wf = true ∧ ∀ r, s.result = some r → r.wf s.cfg = true := by
  unfold State.inv
  cases s.result <;> simp [and_assoc]

/-- A receiver that meets R24 holds at most 255 bytes between operations (R22). -/
theorem acc_length_of_wf {rx : Receiver} (h : rx.wf = true) : rx.acc.length ≤ 255 := by
  unfold Receiver.wf at h
  have := rx.expectedLength.isLt
  split at h
  · simp at h; simp [h]
  · simp at h; omega

end Sys2Proof.Machine
end

