-- ==== Sys2Proof/Tests/Slice0.lean ====
section
/-! SUPPORT. Tests of the model, expected results from spec/95_test_vectors.md and the rules cited, and
for every statement with hypotheses a concrete state and operands that meet them. -/

namespace Sys2Proof.Tests
open Sys2Proof.Machine

/-! ### Small configurations and states -/

def cfgIO : Config := { Config.default with variant := .indexOnly }
def cfgShift (k : Byte) : Config := { Config.default with adapter := .additiveShift, key := k }
def cfgIOShift (k : Byte) : Config := { cfgIO with adapter := .additiveShift, key := k }

/-- A receiver in the middle of a frame. -/
def midFrame (c : Config) (acc : List Byte) (l : Byte) : State :=
  (State.fresh c).setRx { state := .accumulating, acc := acc, expectedLength := l }

def withMsg (c : Config) (i : Index) (t : Option Byte) (p : List Byte) : State :=
  { State.fresh c with msgPort := { index := i, type := t, payload := p } }

def withBlock (c : Config) (f : List Byte) : State := { State.fresh c with blockPort := f }

def hello : List Byte := [0x48, 0x65, 0x6C, 0x6C, 0x6F]

/-! ### Well-formedness: one ill-formed term for each check -/

theorem test_config_without_none_refused :
    Config.wf { Config.default with knownTypes := [0x01, 0x02] } = false := by decide

theorem test_config_without_command_refused :
    Config.wf { Config.default with knownTypes := [0x00, 0x02] } = false := by decide

theorem test_config_with_undefined_refused :
    Config.wf { Config.default with knownTypes := [0x00, 0x01, 0xFF] } = false := by decide

/-- V-SER 9. -/
theorem test_message_type_absent_refused :
    Message.wf Config.default { index := 1, type := none, payload := [] } = false := by decide

/-- V-SER 10. -/
theorem test_message_type_not_a_code_refused :
    Message.wf Config.default { index := 1, type := some 0x07, payload := [] } = false := by decide

/-- V-SER 11. -/
theorem test_message_type_present_refused :
    Message.wf cfgIO { index := 1, type := some 0x01, payload := [] } = false := by decide

/-- V-SER 5: one byte over MAX_PAYLOAD. -/
theorem test_message_too_long_refused :
    Message.wf Config.default { index := 0, type := some 0x01, payload := List.replicate 251 0 } = false := by
  decide +kernel

/-- V-SER 4 and V-SER 7: exactly MAX_PAYLOAD. -/
theorem test_message_longest_accepted :
    Message.wf Config.default { index := 0, type := some 0x01, payload := List.replicate 250 7 } = true ∧
    Message.wf cfgIO { index := 0, type := none, payload := List.replicate 251 0 } = true := by
  decide +kernel

/-- V-DES 11. -/
theorem test_block_too_long_refused : blockOk (List.replicate 257 0) = false := by decide +kernel

/-- An operation has no ill-formed term: what R74 forbids has no constructor and no decoding. -/
theorem test_reserved_words_refused :
    decode 0x0201 = .error (.reservedImmediate 0x0201) ∧ decode 0x0301 = .error (.reservedImmediate 0x0301) ∧
    decode 0x0480 = .error (.reservedImmediate 0x0480) ∧ decode 0x0500 = .error (.reservedOpcode 0x0500) ∧
    decode 0xFF00 = .error (.reservedOpcode 0xFF00) ∧ decode 0x0001 = .error (.reservedOpcode 0x0001) :=
  ⟨rfl, rfl, rfl, rfl, rfl, rfl⟩

/-- R24: a receiver that holds bytes while idle, one that has lost its length byte, and one past its
count are no reachable receivers. -/
theorem test_receiver_wf :
    Receiver.wf { state := .awaitingLength, acc := [0x05], expectedLength := 0 } = false ∧
    Receiver.wf { state := .accumulating, acc := [0x06], expectedLength := 5 } = false ∧
    Receiver.wf { state := .accumulating, acc := [0x01, 0x02], expectedLength := 1 } = false ∧
    Receiver.wf { state := .accumulating, acc := [0x00], expectedLength := 0 } = true := by decide

/-! ### Decoding: one word for each operation, written out from R72, opcode in bits 15..8, imm8 in 7..0 -/

theorem test_decode_feed : decode 0b00000001_00001010 = .ok (.feed 0x0A) := rfl
theorem test_decode_reset : decode 0b00000010_00000000 = .ok .reset := rfl
theorem test_decode_encode : decode 0b00000011_00000000 = .ok .encode := rfl
theorem test_decode_decode : decode 0b00000100_00000000 = .ok .decode := rfl

theorem test_table_words :
    decodeTableWord 16 0x01EE = some (.feed 0xEE) ∧ decodeTableWord 16 0x0200 = some .reset ∧
    decodeTableWord 16 0x0300 = some .encode ∧ decodeTableWord 16 0x0400 = some .decode ∧
    decodeTableWord 16 0x0201 = none ∧ decodeTableWord 32 0x10200 = none := by decide

/-! ### Operations: at most two tests each -/

/-- V-RX 1: the zero length byte swallows the next byte and fails. -/
theorem test_feed_zero_length :
    exec (.feed 0x5A) (midFrame Config.default [0x00] 0x00) =
      .next ((State.fresh Config.default).setResult (.error .truncatedFrame)) := rfl

/-- P3: IndexOnly with AdditiveShift(0x01), the last FEED delivers raw and recovered. -/
theorem test_feed_frame_shifted :
    exec (.feed 0x80) (midFrame (cfgIOShift 1) [0x07, 0x00, 0x00, 0x01, 0x02, 0x00, 0x01] 0x07) =
      .next ((State.fresh (cfgIOShift 1)).setResult (.frame
        { index := 0x00000102, type := none, payload := [0x00, 0x01, 0x80] }
        { index := 0x00000102, type := none, payload := [0xFF, 0x00, 0x7F] })) := rfl

/-- P4: RESET drops the partial frame 0A 01 12. -/
theorem test_reset_drops_partial_frame :
    exec .reset (midFrame Config.default [0x0A, 0x01, 0x12] 0x0A) =
      .next ((State.fresh Config.default).setResult .nothing) := rfl

/-- V-ENC 1: Shift(0x10), the payload byte F0 wraps to 00 and the header is untouched. -/
theorem test_encode_wraps :
    exec .encode (withMsg (cfgShift 0x10) 1 (some 0x00) [0xF0, 0x0F]) =
      .next ((withMsg (cfgShift 0x10) 1 (some 0x00) [0xF0, 0x0F]).setResult
        (.bytes [0x07, 0x00, 0x00, 0x00, 0x00, 0x01, 0x00, 0x1F])) := rfl

/-- E1: the scenario message, big-endian index. -/
theorem test_encode_scenario :
    exec .encode (withMsg Config.default 0x12345678 (some 0x01) hello) =
      .next ((withMsg Config.default 0x12345678 (some 0x01) hello).setResult
        (.bytes [0x0A, 0x01, 0x12, 0x34, 0x56, 0x78, 0x48, 0x65, 0x6C, 0x6C, 0x6F])) := rfl

/-- V-DES 7: byte 0 says 10 and there are 7 bytes; the payload is the remainder. -/
theorem test_decode_ignores_length_byte :
    exec .decode (withBlock Config.default [0x0A, 0x01, 0x00, 0x00, 0x00, 0x01, 0xAA]) =
      .next ((withBlock Config.default [0x0A, 0x01, 0x00, 0x00, 0x00, 0x01, 0xAA]).setResult
        (.msg { index := 1, type := some 0x01, payload := [0xAA] })) := rfl

/-- V-DES 10: a TypeTagged frame read as IndexOnly, wrong and with no error. -/
theorem test_decode_wrong_variant :
    exec .decode (withBlock cfgIO [0x0A, 0x01, 0x12, 0x34, 0x56, 0x78, 0x48, 0x65, 0x6C, 0x6C, 0x6F]) =
      .next ((withBlock cfgIO [0x0A, 0x01, 0x12, 0x34, 0x56, 0x78, 0x48, 0x65, 0x6C, 0x6C, 0x6F]).setResult
        (.msg { index := 0x01123456, type := none, payload := [0x78, 0x48, 0x65, 0x6C, 0x6C, 0x6F] })) := rfl

/-! ### The first operation after reset, as the opcode table's rows place it -/

theorem test_first_feed : step (State.reset.withFetchWord 16 0x0105) = exec (.feed 0x05) State.reset := rfl

/-- V-SER 1, by the operand ports at zero. -/
theorem test_first_encode :
    step (State.reset.withFetchWord 16 0x0300) =
      .next (State.reset.setResult (.bytes [0x05, 0x00, 0x00, 0x00, 0x00, 0x00])) := rfl

/-- R76: LOOPBACK of a refused message is not defined. -/
theorem test_loopback :
    loopback Config.default { index := 1, type := some 0x07, payload := [] } = none ∧
    (loopback Config.default { index := 2, type := some 0x01, payload := [0xAB] }).map assemble =
      some [{ cmd := 0x0300, msg := some { index := 2, type := some 0x01, payload := [0xAB] }, block := none },
        { cmd := 0x0106, msg := none, block := none }, { cmd := 0x0101, msg := none, block := none },
        { cmd := 0x0100, msg := none, block := none }, { cmd := 0x0100, msg := none, block := none },
        { cmd := 0x0100, msg := none, block := none }, { cmd := 0x0102, msg := none, block := none },
        { cmd := 0x01AB, msg := none, block := none }] := by decide

/-! ### Witnesses: for each statement with hypotheses, a state and operands that meet them -/

/-- The states of the receiver statements: idle, and a zero length byte just read. -/
theorem witness_ResetStateOfReceiver :
    let s := midFrame Config.default [0x00] 0x00
    s.rx.state = .accumulating ∧ s.rx.acc.length < 256 ∧
      1 + s.rx.expectedLength.toNat ≤ s.rx.acc.length + 1 := by decide

theorem witness_FreshStateMeetsInvariant : Config.default.wf = true ∧ cfgIO.wf = true := by decide

theorem witness_StepRunsDecodedOperation :
    (present 0x010A State.reset).queue = [{ cmd := 0x010A, msg := none, block := none }] ∧
    decode 0x010A = .ok (.feed 0x0A) ∧ Instr.wf (.feed 0x0A) = true := ⟨rfl, rfl, rfl⟩

theorem witness_PlacedWordRunsNext : decodeTableWord 16 0x01FF = some (.feed 0xFF) := by decide

/-- Both sides of the equivalence, at the edges of its ranges. -/
theorem witness_ReservedCommandWordsRefused :
    step (present 0x00FF State.reset) = .refused (.reservedCommand (.reservedOpcode 0x00FF)) ∧
    step (present 0x0500 State.reset) = .refused (.reservedCommand (.reservedOpcode 0x0500)) ∧
    step (present 0x0201 State.reset) = .refused (.reservedCommand (.reservedImmediate 0x0201)) ∧
    step (present 0x04FF State.reset) = .refused (.reservedCommand (.reservedImmediate 0x04FF)) ∧
    step (present 0x0100 State.reset) = exec (.feed 0x00) State.reset ∧
    step (present 0x0400 State.reset) = exec .decode State.reset := ⟨rfl, rfl, rfl, rfl, rfl, rfl⟩

theorem witness_IdleStepWaits : State.reset.queue = [] := rfl

theorem witness_OpcodeMapSelectsByMask :
    (0x0100 : CmdWord) &&& 0xFF00 = 0x0100 ∧ (0x01FF : CmdWord) &&& 0xFF00 = 0x0100 ∧
    (0x0200 : CmdWord) &&& 0xFFFF = 0x0200 ∧ (0x0300 : CmdWord) &&& 0xFFFF = 0x0300 ∧
    (0x0400 : CmdWord) &&& 0xFFFF = 0x0400 := by decide

theorem witness_DecodeAfterEncode : Instr.wf (.feed 0xFF) = true ∧ Instr.wf .decode = true := by decide

theorem witness_EncodeAfterDecode :
    decode 0x01FF = .ok (.feed 0xFF) ∧ decode 0x0400 = .ok .decode ∧
    OpcodeRow.covers { mask := 0xFFFF, value := 0x0400, sample := .decode } 0x0400 = true :=
  ⟨rfl, rfl, by decide⟩

theorem witness_FeedTakesLengthByte :
    State.reset.rx.state = .awaitingLength ∧ State.reset.rx.acc = [] := by decide

/-- V-RX 4 before its fifth byte: one more byte leaves the count one short. -/
theorem witness_FeedAppendsBelowCount :
    let s := midFrame Config.default [0x05, 0x01, 0x00, 0x00] 0x05
    s.rx.state = .accumulating ∧ (s.rx.acc ++ [0x00]).length < 1 + s.rx.expectedLength.toNat := by decide

/-- V-RX 4: its last byte. -/
theorem witness_FeedDeliversCompleteFrame :
    let s := midFrame Config.default [0x05, 0x01, 0x00, 0x00, 0x00] 0x05
    s.rx.state = .accumulating ∧ s.rx.acc.length < 256 ∧
      1 + s.rx.expectedLength.toNat ≤ (s.rx.acc ++ [0x09]).length ∧
      deserialize s.cfg (s.rx.acc ++ [0x09]) = .ok { index := 9, type := some 0x01, payload := [] } :=
  ⟨rfl, by decide, by decide, rfl⟩

/-- V-RX 3: its last byte. -/
theorem witness_FeedReportsShortFrame :
    let s := midFrame Config.default [0x04, 0x01, 0x02, 0x03] 0x04
    s.rx.state = .accumulating ∧ 1 + s.rx.expectedLength.toNat ≤ (s.rx.acc ++ [0x04]).length ∧
      (s.rx.acc ++ [0x04]).length < s.cfg.headerSize + 1 := by decide

theorem witness_FrameCarriesRawAndRecovered :
    let s := midFrame Config.default [0x05, 0x01, 0x00, 0x00, 0x00] 0x05
    let m : Message := { index := 9, type := some 0x01, payload := [] }
    let t := (State.fresh Config.default).setResult (.frame m m)
    exec (.feed 0x09) s = .next t ∧ t.result = some (.frame m m) ∧ s.cfg.adapter = .identity := ⟨rfl, rfl, rfl⟩

/-- The clauses at their edges: L = 1 and L = H - 1 fail, L = H and L = 255 decode. -/
theorem witness_LengthBytesBelowAndAboveHeader :
    (State.reset.rx.state = .awaitingLength ∧ State.reset.rx.acc = []) ∧
    (1 ≤ (0x01 : Byte).toNat ∧ (0x01 : Byte).toNat ≤ State.reset.cfg.headerSize - 1 ∧
      [(0x77 : Byte)].length = (0x01 : Byte).toNat) ∧
    ((0x04 : Byte).toNat ≤ State.reset.cfg.headerSize - 1 ∧
      [(0x01 : Byte), 0x02, 0x03, 0x04].length = (0x04 : Byte).toNat) ∧
    (State.reset.cfg.headerSize ≤ (0x05 : Byte).toNat ∧
      [(0x01 : Byte), 0x00, 0x00, 0x00, 0x09].length = (0x05 : Byte).toNat) ∧
    (State.reset.cfg.headerSize ≤ (0xFF : Byte).toNat ∧
      (List.replicate 255 (0x00 : Byte)).length = (0xFF : Byte).toNat) :=
  ⟨by decide, by decide, by decide, by decide, by decide, List.length_replicate⟩

/-- L = 0 takes two bytes, L = 1 takes two bytes, L = 255 takes 256. -/
theorem witness_FrameTakesCountedBytes :
    (State.reset.rx.state = .awaitingLength ∧ State.reset.rx.acc = []) ∧
    [(0x5A : Byte)].length + 1 = max 2 (1 + (0x00 : Byte).toNat) ∧
    [(0x77 : Byte)].length + 1 = max 2 (1 + (0x01 : Byte).toNat) ∧
    (List.replicate 255 (0x00 : Byte)).length + 1 = max 2 (1 + (0xFF : Byte).toNat) :=
  ⟨by decide, by decide, by decide, by rw [List.length_replicate]; rfl⟩

theorem witness_CompletedReceiverIsFresh :
    let t := (State.fresh Config.default).setResult (.error .truncatedFrame)
    exec (.feed 0x77) (midFrame Config.default [0x01] 0x01) = .next t ∧
      t.result = some (.error .truncatedFrame) ∧ Result.error .truncatedFrame ≠ .nothing ∧
    exec .reset State.reset = .next (State.reset.setResult .nothing) := ⟨rfl, rfl, by decide, rfl⟩

theorem witness_IncrementalEquivalence :
    State.reset.rx.state = .awaitingLength ∧ State.reset.rx.acc = [] ∧
    Message.wf State.reset.cfg { index := 0x12345678, type := some 0x01, payload := hello } = true := by decide

/-- P4's two frames, back to back. -/
theorem witness_StreamOfFramesIsSplit :
    let ms : List Message := [{ index := 5, type := some 0x04, payload := [0xEE] },
      { index := 6, type := some 0x05, payload := [] }]
    let fs : List (List Byte) := [[0x06, 0x04, 0x00, 0x00, 0x00, 0x05, 0xEE], [0x05, 0x05, 0x00, 0x00, 0x00, 0x06]]
    State.reset.rx.state = .awaitingLength ∧ State.reset.rx.acc = [] ∧
    (∀ m ∈ ms, m.wf State.reset.cfg = true) ∧ ms.map (serialize State.reset.cfg) = fs.map Except.ok :=
  ⟨rfl, rfl, by decide, rfl⟩

theorem witness_BufferHoldsBytesFed :
    exec (.feed 0x05) State.reset = .next ((midFrame Config.default [0x05] 0x05).setResult .nothing) ∧
    exec .encode State.reset = .next (State.reset.setResult (.bytes [0x05, 0x00, 0x00, 0x00, 0x00, 0x00])) ∧
    (State.reset.rx.state = .awaitingLength ∧ State.reset.rx.acc = []) ∧
    ([] : List Byte).length + 1 < max 2 (1 + (0x00 : Byte).toNat) ∧
    [(0x01 : Byte), 0x00, 0x00, 0x00].length + 1 < max 2 (1 + (0x05 : Byte).toNat) :=
  ⟨rfl, rfl, by decide, by decide, by decide⟩

theorem witness_ReceiverOperationsFrame :
    exec (.feed 0x05) State.reset = .next ((midFrame Config.default [0x05] 0x05).setResult .nothing) ∧
    exec .reset State.reset = .next (State.reset.setResult .nothing) := ⟨rfl, rfl⟩

theorem witness_HeaderSizesAndLimits :
    Config.default.variant = .typeTagged ∧ cfgIO.variant = .indexOnly := by decide

theorem witness_PayloadTooLargeExactly :
    serialize Config.default { index := 0, type := some 0x01, payload := List.replicate 251 0 } =
      .error .payloadTooLarge := serialize_too_large (by rw [List.length_replicate]; decide)

theorem witness_TypeTaggedLayout :
    Config.default.variant = .typeTagged ∧
    (idleMessage Config.default).type = some 0x00 ∧ (List.replicate 250 (0x07 : Byte)).length ≤ 250 :=
  ⟨rfl, rfl, Nat.le_of_eq List.length_replicate⟩

theorem witness_IndexOnlyLayout :
    cfgIO.variant = .indexOnly ∧ (List.replicate 251 (0x00 : Byte)).length ≤ 251 :=
  ⟨rfl, Nat.le_of_eq List.length_replicate⟩

/-- An empty payload, the shortest frame, in both variants. -/
theorem witness_wellFormedMessage :
    Message.wf Config.default { index := 0, type := some 0xFF, payload := [] } = true ∧
    Message.wf cfgIO { index := 0xFFFFFFFF, type := none, payload := [0x00, 0xFF] } = true := by decide

theorem witness_SerializedFrameRanges :
    Message.wf Config.default { index := 0, type := some 0x01, payload := List.replicate 250 7 } = true ∧
    Config.default.variant = .typeTagged := by decide +kernel

/-- N = H and N = H + 1 in both variants, and N = 256. -/
theorem witness_DeserializeFields :
    ([0x05, 0x00, 0x00, 0x00, 0x00] : List Byte).length < Config.default.headerSize + 1 ∧
    Config.default.headerSize + 1 ≤ ([0x05, 0x01, 0x00, 0x00, 0x00, 0x2A] : List Byte).length ∧
    ([0x03, 0x00, 0x00, 0x00] : List Byte).length < cfgIO.headerSize + 1 ∧
    cfgIO.headerSize + 1 ≤ ([0x04, 0xDE, 0xAD, 0xBE, 0xEF] : List Byte).length ∧
    (List.replicate 256 (0x00 : Byte)).length ≤ 256 :=
  ⟨by decide, by decide, by decide, by decide, Nat.le_of_eq List.length_replicate⟩

theorem witness_IndexIsBigEndian :
    Message.wf cfgIO { index := 0xDEADBEEF, type := none, payload := [] } = true ∧
    deserialize cfgIO [0x04, 0xDE, 0xAD, 0xBE, 0xEF] =
      .ok { index := 0xDEADBEEF, type := none, payload := [] } := ⟨rfl, rfl⟩

/-- A known type, an unknown one and the sentinel, and the shortest remainder. -/
theorem witness_TypeCoercion :
    Config.default.wf = true ∧ (0x05 : Byte) ∈ Config.default.knownTypes ∧
    (0x06 : Byte) ∉ Config.default.knownTypes ∧ Config.default.variant = .typeTagged ∧
    4 ≤ ([0x00, 0x00, 0x00, 0x07] : List Byte).length := by decide

/-- A length byte that agrees, and the shortest remainder. -/
theorem witness_LengthByteNotRevalidated :
    Config.default.headerSize ≤ ([0x01, 0x00, 0x00, 0x00, 0x2A] : List Byte).length ∧
    (0x05 : Byte).toNat = ([0x01, 0x00, 0x00, 0x00, 0x2A] : List Byte).length := by decide

theorem witness_CodecRoundTrip :
    Message.wf Config.default { index := 0xFFFFFFFF, type := some 0xFF, payload := [0x00, 0xFF] } = true ∧
    Message.wf cfgIO { index := 0, type := none, payload := List.replicate 251 0 } = true := by
  decide +kernel

/-- N = H + 1 and N = 256. -/
theorem witness_CodecPartialConverse :
    Config.default.headerSize + 1 ≤ ([0x05, 0x06, 0x00, 0x00, 0x00, 0x07] : List Byte).length ∧
    Config.default.headerSize + 1 ≤ (List.replicate 256 (0x00 : Byte)).length ∧
    (List.replicate 256 (0x00 : Byte)).length ≤ 256 := by
  rw [List.length_replicate]; decide

theorem witness_VariantMismatchUndetected :
    cfgIO.variant = .indexOnly ∧ Config.default.variant = .typeTagged ∧
    ([0x48] : List Byte) = 0x48 :: [] := ⟨rfl, rfl, rfl⟩

theorem witness_ByteTransforms :
    Config.default.adapter = .identity ∧ (cfgShift 0xFF).adapter = .additiveShift := by decide

theorem witness_MessageTransformsByLane :
    (hello[4]? : Option Byte) = some 0x6F ∧ Config.default.adapter = .identity ∧
    (cfgShift 0x01).adapter = .additiveShift := by decide

theorem witness_HeaderNeverTransformed :
    Message.wf (cfgShift 0x01) { index := 0x12345678, type := some 0x01, payload := hello } = true ∧
    deserialize (cfgShift 0x01) [0x05, 0x01, 0x00, 0x00, 0x00, 0x2A] =
      .ok { index := 0x2A, type := some 0x01, payload := [] } ∧
    adapterDecode (cfgShift 0x01) [0x05, 0x01, 0x00, 0x00, 0x00, 0x2A] =
      .ok { index := 0x2A, type := some 0x01, payload := [] } := ⟨rfl, rfl, rfl⟩

/-- Every clause: the three refusals (V-SER 9, 11, 10), and the longest payload that fits and the shortest
that does not, in both variants (V-SER 4, 5, 7, 8). -/
theorem witness_EncodeOperation :
    ((withMsg Config.default 1 none []).cfg.variant = .typeTagged ∧
      (withMsg Config.default 1 none []).msgPort.type = none) ∧
    ((withMsg cfgIO 1 (some 0x01) []).cfg.variant = .indexOnly ∧
      (withMsg cfgIO 1 (some 0x01) []).msgPort.type ≠ none) ∧
    ((withMsg Config.default 1 (some 0x07) []).msgPort.type = some 0x07 ∧
      (0x07 : Byte) ∉ Config.default.knownTypes ∧ (0x07 : Byte) ≠ 0xFF) ∧
    (0x01 ∈ Config.default.knownTypes ∧
      Config.default.headerSize + (List.replicate 250 (0x07 : Byte)).length ≤ 255 ∧
      255 < Config.default.headerSize + (List.replicate 251 (0x00 : Byte)).length) ∧
    ((withMsg cfgIO 1 none []).msgPort.type = none ∧
      cfgIO.headerSize + (List.replicate 251 (0x00 : Byte)).length ≤ 255 ∧
      255 < cfgIO.headerSize + (List.replicate 252 (0x00 : Byte)).length) := by
  simp only [List.length_replicate]; decide

/-- Every clause at its edge: N = 257, N = H, N = H + 1, N = 256. -/
theorem witness_DecodeOperation :
    256 < (withBlock Config.default (List.replicate 257 0)).blockPort.length ∧
    (withBlock Config.default [0x05, 0x00, 0x00, 0x00, 0x00]).blockPort.length < Config.default.headerSize + 1 ∧
    Config.default.headerSize + 1 ≤
      (withBlock Config.default [0x05, 0x00, 0x00, 0x00, 0x00, 0x00]).blockPort.length ∧
    (withBlock Config.default (List.replicate 256 0)).blockPort.length ≤ 256 := by
  simp only [withBlock, List.length_replicate]; decide

theorem witness_IdentityAdapterIsPlainCodec : Config.default.adapter = .identity := rfl

theorem witness_AdditiveShiftConsequences :
    (cfgShift 0x00).adapter = .additiveShift ∧ (cfgShift 0x00).key = 0x00 ∧ (cfgShift 0xFF).key = 0xFF := by decide

theorem witness_AdapterInverse :
    let s := withMsg (cfgShift 0x01) 0x12345678 (some 0x01) hello
    s.msgPort.wf s.cfg = true := rfl

theorem witness_KeyMismatchShiftsPayload :
    (cfgShift 0x01).adapter = .additiveShift ∧
    Message.wf (cfgShift 0x01) { index := 0x12345678, type := some 0x01, payload := hello } = true := by decide

/-- ENCODE and DECODE in the middle of a frame, as P5 has them, beside the same operand while idle. -/
theorem witness_EncodeDecodeArePure :
    let s := midFrame Config.default [0x0A] 0x0A
    s.cfg = State.reset.cfg ∧ s.msgPort = State.reset.msgPort ∧ s.blockPort = State.reset.blockPort ∧
    exec .encode State.reset = .next (State.reset.setResult (.bytes [0x05, 0x00, 0x00, 0x00, 0x00, 0x00])) ∧
    exec .decode State.reset = .next (State.reset.setResult (.error .truncatedFrame)) := ⟨rfl, rfl, rfl, rfl, rfl⟩

/-- A next state of each operation, with an error where it has one. -/
theorem witness_CausesAndConditions :
    exec (.feed 0x77) (midFrame Config.default [0x01] 0x01) =
      .next ((State.fresh Config.default).setResult (.error .truncatedFrame)) ∧
    exec .reset State.reset = .next (State.reset.setResult .nothing) ∧
    exec .encode (withMsg Config.default 0 (some 0x01) (List.replicate 251 0)) =
      .next ((withMsg Config.default 0 (some 0x01) (List.replicate 251 0)).setResult (.error .payloadTooLarge)) ∧
    exec .decode State.reset = .next (State.reset.setResult (.error .truncatedFrame)) := by
  refine ⟨rfl, rfl, ?_, rfl⟩
  have h : adapterEncode Config.default (withMsg Config.default 0 (some 0x01) (List.replicate 251 0)).msgPort =
      .error .payloadTooLarge :=
    serialize_too_large (by rw [transform_payload, List.length_map, withMsg, List.length_replicate]; decide)
  have hr : readMessage (withMsg Config.default 0 (some 0x01) (List.replicate 251 0)) = .ok _ :=
    readMessage_ok rfl
  simp only [exec, execEncode, hr]
  rw [show (withMsg Config.default 0 (some 0x01) (List.replicate 251 0)).cfg = Config.default from rfl, h]
  rfl

theorem witness_ErrorEffectOnState :
    let t := (State.fresh Config.default).setResult (.error .truncatedFrame)
    exec (.feed 0x77) (midFrame Config.default [0x01] 0x01) = .next t ∧
      t.result = some (.error .truncatedFrame) ∧
    exec .decode State.reset = .next (State.reset.setResult (.error .truncatedFrame)) ∧
      (State.reset.setResult (.error .truncatedFrame)).result = some (.error .truncatedFrame) :=
  ⟨rfl, rfl, rfl, rfl⟩

theorem witness_RefusalBeforeError :
    let s := withMsg Config.default 0 (some 0x07) (List.replicate 251 0)
    s.msgPort.typeOk s.cfg = false ∧ 255 < s.cfg.headerSize + s.msgPort.payload.length ∧
    256 < (withBlock Config.default (List.replicate 257 0)).blockPort.length := by
  simp only [withMsg, withBlock, List.length_replicate]; decide

theorem witness_StepKeepsInvariant :
    let s := present 0x0105 State.reset
    s.inv = true ∧ step s = .next ((midFrame Config.default [0x05] 0x05).setResult .nothing) :=
  ⟨by decide, rfl⟩

/-- The invariant holds in the middle of a frame, at both ends of clause (b) of R24. -/
theorem witness_InvariantStateNeverFaults :
    (midFrame Config.default [0x00] 0x00).inv = true ∧
    (midFrame Config.default [0x02, 0x01] 0x02).inv = true := by decide

/-- The invariant beside each refused operand: V-SER 10 and V-DES 11. -/
theorem witness_EveryOperationCompletes :
    State.reset.inv = true ∧
    ((withMsg Config.default 1 (some 0x07) []).inv = true ∧
      (withMsg Config.default 1 (some 0x07) []).msgPort.typeOk Config.default = false) ∧
    ((withBlock Config.default (List.replicate 257 0)).inv = true ∧
      256 < (withBlock Config.default (List.replicate 257 0)).blockPort.length) := by
  refine ⟨by decide, by decide, rfl, ?_⟩
  simp only [withBlock, List.length_replicate]; decide

theorem witness_ParametersNeverWritten :
    step (present 0x0200 State.reset) = .next (State.reset.setResult .nothing) := rfl

/-- Two idle receivers with different expected lengths. -/
theorem witness_ExpectedLengthIsHidden :
    let t := State.reset.setRx { state := .awaitingLength, acc := [], expectedLength := 0x2A }
    State.reset.inv = true ∧ t.inv = true ∧ State.reset.sameButLength t :=
  ⟨by decide, by decide, rfl⟩

end Sys2Proof.Tests
end

section
/-! SUPPORT. The family 00_scope.md: the operation a step runs, that every operation completes, and the
header sizes of the two variants. -/

namespace Sys2Proof.Machine

/-! ### The meaning of each operation -/

theorem exec_feed (b : Byte) (s : State) : exec (.feed b) s = execFeed b s := rfl
theorem exec_reset (s : State) : exec .reset s = execReset s := rfl
theorem exec_encode (s : State) : exec .encode s = execEncode s := rfl
theorem exec_decode (s : State) : exec .decode s = execDecode s := rfl

/-! ### The operation a step runs -/

/-- A step whose command word decodes runs the operation on the driven state (R15, R26). -/
theorem step_of_decode {s : State} {r : Request} {q : List Request} {i : Instr}
    (hq : s.queue = r :: q) (hd : decode r.cmd = .ok i) : step s = exec i (s.drive r q) := by
  simp [step, issue_cons hq, hd]

/-- A presented word that decodes is run on the state it was presented to. -/
theorem step_present {cmd : CmdWord} {i : Instr} (s : State) (hd : decode cmd = .ok i) :
    step (present cmd s) = exec i s := by
  simp [step, issue_present, hd]

/-- The table's bits read as an operation exactly when they name a command word that decodes to it. -/
theorem decodeTableWord_eq_some_iff {n w : Nat} {i : Instr} :
    decodeTableWord n w = some i ↔ ∃ cmd, tableWord n w = some cmd ∧ decode cmd = .ok i := by
  unfold decodeTableWord
  cases tableWord n w with
  | none => simp
  | some cmd => cases hd : decode cmd <;> simp [Except.toOption, hd]

theorem withFetchWord_of_tableWord {n w : Nat} {cmd : CmdWord} (s : State)
    (h : tableWord n w = some cmd) : s.withFetchWord n w = present cmd s := by
  simp [State.withFetchWord, h]

/-- Settles O3: `drive` is the state the statement writes out. -/
theorem stepRunsDecodedOperation : Obligations.StepRunsDecodedOperation :=
  fun _ _ _ _ hq hd _ => step_of_decode hq hd

/-- Settles O4: the bits name a command word, and presenting it then issuing it gives the state back. -/
theorem placedWordRunsNext : Obligations.PlacedWordRunsNext := by
  intro s w i h
  obtain ⟨cmd, hw, hd⟩ := decodeTableWord_eq_some_iff.1 h
  rw [withFetchWord_of_tableWord s hw, step_present s hd]

/-! ### Every operation completes -/

/-- An outcome that writes a result is a completion with that result (R15). -/
theorem completes_of_setResult {o : Host.Outcome State Fault Refusal} {t : State} {r : Result}
    (h : o = .next (t.setResult r)) : ∃ t r, o = .next t ∧ t.result = some r :=
  ⟨_, r, h, setResult_result t r⟩

/-- FEED completes while the buffer has a cell left (R130). -/
theorem execFeed_completes (b : Byte) {s : State} (hl : s.rx.acc.length < 256) :
    ∃ t r, execFeed b s = .next t ∧ t.result = some r := by
  obtain ⟨hfull, -⟩ | ⟨-, -, h⟩ | ⟨-, -, h⟩ | ⟨-, -, -, h⟩ := execFeed_cases b s
  · omega
  all_goals exact completes_of_setResult h

/-- ENCODE completes, or refuses a message whose type is not well formed (R164). -/
theorem execEncode_completes_or_refuses (s : State) :
    (∃ t r, execEncode s = .next t ∧ t.result = some r) ∨
    (s.msgPort.typeOk s.cfg = false ∧ ∃ q, execEncode s = .refused q) := by
  obtain ⟨ht, q, -, h⟩ | ⟨-, -, h⟩ | ⟨-, -, f, -, h⟩ := execEncode_cases s
  · exact .inr ⟨ht, q, h⟩
  all_goals exact .inl (completes_of_setResult h)

/-- DECODE completes, or refuses a block of more than 256 bytes (R165). -/
theorem execDecode_completes_or_refuses (s : State) :
    (∃ t r, execDecode s = .next t ∧ t.result = some r) ∨
    (256 < s.blockPort.length ∧ ∃ q, execDecode s = .refused q) := by
  obtain ⟨hl, h⟩ | ⟨-, h⟩ | ⟨-, m, -, h⟩ := execDecode_cases s
  · exact .inr ⟨hl, _, h⟩
  all_goals exact .inl (completes_of_setResult h)

/-- Settles O52, operation by operation; the invariant is what gives FEED a free cell (R22, R24). -/
theorem everyOperationCompletes : Obligations.EveryOperationCompletes := by
  intro i s hinv
  cases i with
  | feed b =>
    obtain ⟨-, hrx, -⟩ := (inv_iff s).1 hinv
    have hroom : s.rx.acc.length < 256 := Nat.lt_succ_of_le (acc_length_of_wf hrx)
    rw [exec_feed]
    exact .inl (execFeed_completes b hroom)
  | reset =>
    rw [exec_reset]
    exact .inl (completes_of_setResult (execReset_eq s))
  | encode =>
    rw [exec_encode]
    exact (execEncode_completes_or_refuses s).imp_right fun h => .inl ⟨rfl, h⟩
  | decode =>
    rw [exec_decode]
    exact (execDecode_completes_or_refuses s).imp_right fun h => .inr ⟨rfl, h⟩

/-! ### The header sizes -/

/-- Settles O25: MAX_PAYLOAD and the index offset follow from the header size (R11, R64). -/
theorem headerSizesAndLimits : Obligations.HeaderSizesAndLimits := by
  intro c
  constructor
  · intro hv
    simp [Config.maxPayload, Config.indexOffset, headerSize_typeTagged hv, maxFrameLength]
  · intro hv
    simp [Config.maxPayload, Config.indexOffset, headerSize_indexOnly hv, maxFrameLength]

end Sys2Proof.Machine
end

section
/-! SUPPORT. The family 10_state.md: the reset state, the invariant every step keeps, the parameters, and
the hidden expected length. -/

namespace Sys2Proof.Machine

/-! ### The reset state -/

/-- A fresh block with legal parameters meets the invariant (R10, R24, R31). -/
theorem inv_fresh {c : Config} (h : c.wf = true) : (State.fresh c).inv = true :=
  (inv_iff _).2 ⟨h, rfl, nofun⟩

/-- Settles O1: RESET and the completing FEED both write `Receiver.fresh` (R31, R230). -/
theorem resetStateOfReceiver : Obligations.ResetStateOfReceiver := by
  refine ⟨rfl, fun c => ⟨rfl, rfl⟩, fun s => ⟨_, execReset_eq s, rfl, rfl⟩, ?_⟩
  intro b s hacc hroom hcount
  exact ⟨_, execFeed_complete b hacc hroom (by omega), rfl, rfl⟩

/-- Settles O2: the default parameters are legal ones. -/
theorem freshStateMeetsInvariant : Obligations.FreshStateMeetsInvariant :=
  ⟨inv_fresh (by decide), fun _ hc => inv_fresh hc⟩

/-! ### The receiver's invariant -/

/-- Clause (a) of R24. -/
theorem Receiver.wf_iff_of_awaiting {rx : Receiver} (h : rx.state = .awaitingLength) :
    rx.wf = true ↔ rx.acc = [] := by
  simp [Receiver.wf, h]

/-- Clause (b) of R24. -/
theorem Receiver.wf_iff_of_accumulating {rx : Receiver} (h : rx.state = .accumulating) :
    rx.wf = true ↔ rx.acc.head? = some rx.expectedLength ∧
      rx.acc.length < max 2 (1 + rx.expectedLength.toNat) := by
  simp [Receiver.wf, h]

theorem wf_receiver_fresh : Receiver.fresh.wf = true := rfl

/-- The length byte alone in the buffer meets R24, whatever it is (R131). -/
theorem wf_receiver_of_length_byte (b : Byte) :
    Receiver.wf { state := .accumulating, acc := [b], expectedLength := b } = true :=
  (Receiver.wf_iff_of_accumulating rfl).2 ⟨rfl, by simp only [List.length_singleton]; omega⟩

/-- A byte appended below the count leaves the length byte first and the count not reached (R132). -/
theorem wf_receiver_append {rx : Receiver} (b : Byte) (h : rx.state = .accumulating) (hwf : rx.wf = true)
    (hcount : rx.acc.length < rx.expectedLength.toNat) :
    Receiver.wf { state := .accumulating, acc := rx.acc ++ [b], expectedLength := rx.expectedLength } = true := by
  obtain ⟨hhead, -⟩ := (Receiver.wf_iff_of_accumulating h).1 hwf
  refine (Receiver.wf_iff_of_accumulating rfl).2 ⟨?_, ?_⟩
  · simp [List.head?_append, hhead]
  · simp only [List.length_append, List.length_singleton]; omega

/-! ### Well-formed results -/

/-- What deserialize makes of at most 256 bytes is a well-formed message (R106). -/
theorem wf_of_deserialize {c : Config} {f : List Byte} {m : Message} (h : deserialize c f = .ok m)
    (hl : f.length ≤ 256) : m.wf c = true := by
  obtain ⟨htype, hlen⟩ := deserialize_ok h
  exact (wf_iff c m).2 ⟨htype, by omega⟩

/-- What serialize makes of a well-typed message is a legal frame (R61, R68). -/
theorem frameBytesOk_of_serialize {c : Config} {m : Message} {f : List Byte} (ht : m.typeOk c = true)
    (h : serialize c m = .ok f) : frameBytesOk c f = true := by
  obtain ⟨-, h'⟩ | ⟨hl, h'⟩ := serialize_cases c m <;> rw [h'] at h <;> cases h
  have hbyte0 : (BitVec.ofNat 8 (c.headerSize + m.payload.length)).toNat
      = c.headerSize + m.payload.length := by rw [BitVec.toNat_ofNat]; omega
  have hH := headerSize_bounds c
  have hrest : (typeField c m ++ indexBytes m.index ++ m.payload).length
      = c.headerSize + m.payload.length := by
    simp only [List.length_append, typeField_length ht, indexBytes, List.length_cons, List.length_nil]
    omega
  simp only [frameBytesOk, hbyte0, hrest, decide_true, Bool.true_and, decide_eq_true_iff]
  omega

/-- The result of a frame of at most 256 bytes is well formed, delivered or not (R133, R134). -/
theorem wf_frameResult {c : Config} {f : List Byte} (hl : f.length ≤ 256) :
    (frameResult c f).wf c = true := by
  obtain ⟨-, h⟩ | ⟨-, raw, hd, h⟩ := frameResult_cases c f <;> rw [h]
  · rfl
  · simp [Result.wf, wf_untransform, wf_of_deserialize hd hl]

/-! ### What a completed operation writes -/

/-- `t` is `s` with a result written and the receiver replaced: the result is well formed, and the
receiver keeps R24 if it met it. -/
def CompletesTo (s t : State) : Prop :=
  ∃ rx r, t = (s.setRx rx).setResult r ∧ (s.rx.wf = true → rx.wf = true) ∧ r.wf s.cfg = true

/-- An operation that writes its result alone. -/
theorem completesTo_setResult {s : State} {r : Result} (h : r.wf s.cfg = true) :
    CompletesTo s (s.setResult r) := ⟨s.rx, r, rfl, id, h⟩

theorem execFeed_completesTo {b : Byte} {s t : State} (h : execFeed b s = .next t) :
    CompletesTo s t := by
  obtain ⟨-, h'⟩ | ⟨ha, -, h'⟩ | ⟨ha, hc, h'⟩ | ⟨-, hroom, -, h'⟩ := execFeed_cases b s <;>
    rw [h'] at h <;> cases h
  · refine ⟨_, _, rfl, fun hwf => ?_, rfl⟩
    rw [(Receiver.wf_iff_of_awaiting ha).1 hwf]
    exact wf_receiver_of_length_byte b
  · exact ⟨_, _, rfl, fun hwf => wf_receiver_append b ha hwf hc, rfl⟩
  · refine ⟨_, _, rfl, fun _ => wf_receiver_fresh, wf_frameResult ?_⟩
    simp only [List.length_append, List.length_singleton]
    omega

theorem execReset_completesTo {s t : State} (h : execReset s = .next t) : CompletesTo s t := by
  rw [execReset_eq] at h
  cases h
  exact ⟨_, _, rfl, fun _ => wf_receiver_fresh, rfl⟩

theorem execEncode_completesTo {s t : State} (h : execEncode s = .next t) : CompletesTo s t := by
  obtain ⟨-, r, -, h'⟩ | ⟨-, -, h'⟩ | ⟨ht, -, f, hf, h'⟩ := execEncode_cases s <;>
    rw [h'] at h <;> cases h
  · exact completesTo_setResult rfl
  · exact completesTo_setResult (frameBytesOk_of_serialize (m := transform s.cfg s.msgPort) ht hf)

theorem execDecode_completesTo {s t : State} (h : execDecode s = .next t) : CompletesTo s t := by
  obtain ⟨-, h'⟩ | ⟨-, h'⟩ | ⟨hl, m, hm, h'⟩ := execDecode_cases s <;> rw [h'] at h <;> cases h
  · exact completesTo_setResult rfl
  · exact completesTo_setResult ((wf_untransform s.cfg m).trans (wf_of_deserialize hm hl))

theorem exec_completesTo {i : Instr} {s t : State} (h : exec i s = .next t) : CompletesTo s t := by
  cases i with
  | feed b => exact execFeed_completesTo h
  | reset  => exact execReset_completesTo h
  | encode => exact execEncode_completesTo h
  | decode => exact execDecode_completesTo h

/-- A step that goes on has waited, or completed an operation on the driven state (R15). -/
theorem step_next_cases {s t : State} (h : step s = .next t) :
    t = s ∨ ∃ r q, CompletesTo (s.drive r q) t := by
  obtain ⟨-, h'⟩ | ⟨r, q, e, -, -, h'⟩ | ⟨r, q, i, -, -, h'⟩ := step_cases s <;> rw [h'] at h
  · cases h; exact .inl rfl
  · cases h
  · exact .inr ⟨r, q, exec_completesTo h⟩

/-! ### The invariant, the fault and the parameters -/

theorem inv_of_completesTo {s t : State} (h : CompletesTo s t) (hinv : s.inv = true) : t.inv = true := by
  obtain ⟨rx, r, rfl, hrx, hr⟩ := h
  obtain ⟨hcfg, hwf, -⟩ := (inv_iff s).1 hinv
  refine (inv_iff _).2 ⟨hcfg, hrx hwf, ?_⟩
  rintro _ ⟨⟩
  exact hr

theorem cfg_of_completesTo {s t : State} (h : CompletesTo s t) : t.cfg = s.cfg := by
  obtain ⟨rx, r, rfl, -, -⟩ := h
  rfl

/-- Settles O50: a completed operation keeps the receiver's clauses and writes a well-formed result. -/
theorem stepKeepsInvariant : Obligations.StepKeepsInvariant := by
  intro s t hinv h
  obtain rfl | ⟨r, q, ht⟩ := step_next_cases h
  · exact hinv
  · exact inv_of_completesTo ht ((inv_drive s r q).trans hinv)

/-- Settles O53: a completed operation writes the receiver and the result alone (R25). -/
theorem parametersNeverWritten : Obligations.ParametersNeverWritten := by
  intro s t h
  obtain rfl | ⟨r, q, ht⟩ := step_next_cases h
  · rfl
  · exact (cfg_of_completesTo ht).trans (drive_cfg s r q)

/-- From an invariant state every operation completes or refuses its operand, so none faults. -/
theorem exec_ne_fault (i : Instr) {s : State} (hinv : s.inv = true) (e : Fault) :
    exec i s ≠ .fault e := by
  obtain ⟨t, r, h, -⟩ | ⟨-, -, q, h⟩ | ⟨-, -, q, h⟩ := everyOperationCompletes i s hinv <;>
    rw [h] <;> nofun

/-- Settles O51: R24 bounds the buffer, and the operation a step runs does not fault. -/
theorem invariantStateNeverFaults : Obligations.InvariantStateNeverFaults := by
  intro s hinv
  obtain ⟨-, hrx, -⟩ := (inv_iff s).1 hinv
  refine ⟨acc_length_of_wf hrx, fun e => ?_⟩
  obtain ⟨-, h⟩ | ⟨r, q, d, -, -, h⟩ | ⟨r, q, i, -, -, h⟩ := step_cases s <;> rw [h]
  · nofun
  · nofun
  · exact exec_ne_fault i ((inv_drive s r q).trans hinv) e

/-! ### The hidden expected length

A state that differs from `s` in `rx.expected_length` alone is `s.withLength l`. If both meet R24 then
either the receiver accumulates and the buffer's first byte is the length in both, so they are one state,
or it awaits a length byte, and then no operation reads `rx.expected_length` before it is overwritten
(R23, R30). -/

/-- The state with another `rx.expected_length`. -/
def State.withLength (s : State) (l : Byte) : State := s.setRx { s.rx with expectedLength := l }

theorem sameButLength_iff (s t : State) : s.sameButLength t ↔ ∃ l, t = s.withLength l := by
  constructor
  · exact fun h => ⟨_, h⟩
  · rintro ⟨l, rfl⟩
    rfl

theorem withLength_setResult (s : State) (l : Byte) (a : Result) :
    (s.withLength l).setResult a = (s.setResult a).withLength l := rfl

theorem withLength_drive (s : State) (l : Byte) (r : Request) (q : List Request) :
    (s.withLength l).drive r q = (s.drive r q).withLength l := rfl

theorem sameButLength_withLength (s : State) (l : Byte) : s.sameButLength (s.withLength l) := rfl

theorem sameButLength_refl (s : State) : s.sameButLength s := rfl

theorem sameOutcomeButLength_refl (o : Host.Outcome State Fault Refusal) : sameOutcomeButLength o o := by
  cases o with
  | next s    => exact sameButLength_refl s
  | fault e   => rfl
  | refused r => rfl

/-- The three forms of two outcomes that agree but for the expected length. -/
theorem sameOutcomeButLength_cases {o p : Host.Outcome State Fault Refusal}
    (h : sameOutcomeButLength o p) :
    (∃ s t, o = .next s ∧ p = .next t ∧ s.sameButLength t) ∨
    (∃ e, o = .fault e ∧ p = .fault e) ∨ (∃ r, o = .refused r ∧ p = .refused r) := by
  unfold sameOutcomeButLength at h
  split at h
  · exact .inl ⟨_, _, rfl, rfl, h⟩
  · exact .inr (.inl ⟨_, rfl, h ▸ rfl⟩)
  · exact .inr (.inr ⟨_, rfl, h ▸ rfl⟩)
  · exact h.elim

/-- Where both states meet R24, a different length is possible only while AwaitingLength (R23). -/
theorem withLength_eq_self_or_awaiting {s : State} {l : Byte} (hs : s.inv = true)
    (ht : (s.withLength l).inv = true) :
    s.withLength l = s ∨ (s.rx.state = .awaitingLength ∧ s.rx.acc = []) := by
  obtain ⟨-, hs, -⟩ := (inv_iff _).1 hs
  obtain ⟨-, ht, -⟩ := (inv_iff _).1 ht
  cases h : s.rx.state with
  | awaitingLength => exact .inr ⟨rfl, (Receiver.wf_iff_of_awaiting h).1 hs⟩
  | accumulating =>
    obtain ⟨hhead, -⟩ := (Receiver.wf_iff_of_accumulating h).1 hs
    obtain ⟨hhead', -⟩ := (Receiver.wf_iff_of_accumulating (rx := (s.withLength l).rx) h).1 ht
    obtain rfl : s.rx.expectedLength = l := Option.some.inj (hhead.symm.trans hhead')
    exact .inl rfl

/-- In AwaitingLength FEED overwrites the expected length without reading it (R131). -/
theorem execFeed_withLength (b l : Byte) {s : State} (h : s.rx.state = .awaitingLength)
    (hacc : s.rx.acc = []) : execFeed b (s.withLength l) = execFeed b s := by
  have hroom : s.rx.acc.length < 256 := by simp [hacc]
  rw [execFeed_length b h hroom, execFeed_length (s := s.withLength l) b h hroom]
  rfl

/-- Two outcomes, one from `s` and one from `s'`, that are the same refusal or write the same result and
nothing else. -/
def AnswerAlike (s s' : State) (o o' : Host.Outcome State Fault Refusal) : Prop :=
  (∃ r, o = .refused r ∧ o' = .refused r) ∨
  (∃ a, o = .next (s.setResult a) ∧ o' = .next (s'.setResult a))

/-- ENCODE reads the parameters and the message port alone (R169). -/
theorem execEncode_answerAlike {s s' : State} (hc : s'.cfg = s.cfg) (hm : s'.msgPort = s.msgPort) :
    AnswerAlike s s' (execEncode s) (execEncode s') := by
  unfold execEncode
  rw [show readMessage s' = readMessage s by simp only [readMessage, hc, hm], hc]
  cases readMessage s with
  | error r => exact .inl ⟨r, rfl, rfl⟩
  | ok m =>
    dsimp only
    cases adapterEncode s.cfg m with
    | error e => exact .inr ⟨.error e, rfl, rfl⟩
    | ok f    => exact .inr ⟨.bytes f, rfl, rfl⟩

/-- DECODE reads the parameters and the byte-block port alone (R169). -/
theorem execDecode_answerAlike {s s' : State} (hc : s'.cfg = s.cfg) (hb : s'.blockPort = s.blockPort) :
    AnswerAlike s s' (execDecode s) (execDecode s') := by
  unfold execDecode
  rw [show readBlock s' = readBlock s by simp only [readBlock, hb], hc]
  cases readBlock s with
  | error r => exact .inl ⟨r, rfl, rfl⟩
  | ok f =>
    dsimp only
    cases adapterDecode s.cfg f with
    | error e => exact .inr ⟨.error e, rfl, rfl⟩
    | ok m    => exact .inr ⟨.msg m, rfl, rfl⟩

theorem sameOutcome_of_answerAlike {s : State} {l : Byte} {o o' : Host.Outcome State Fault Refusal}
    (h : AnswerAlike s (s.withLength l) o o') : sameOutcomeButLength o o' := by
  obtain ⟨r, rfl, rfl⟩ | ⟨a, rfl, rfl⟩ := h
  · rfl
  · rw [withLength_setResult]
    exact sameButLength_withLength (s.setResult a) l

/-- In AwaitingLength no operation shows the expected length. -/
theorem exec_withLength (i : Instr) (l : Byte) {s : State} (h : s.rx.state = .awaitingLength)
    (hacc : s.rx.acc = []) : sameOutcomeButLength (exec i s) (exec i (s.withLength l)) := by
  cases i with
  | feed b =>
    rw [exec_feed, exec_feed, execFeed_withLength b l h hacc]
    exact sameOutcomeButLength_refl _
  | reset => exact sameOutcomeButLength_refl (execReset s)
  | encode => exact sameOutcome_of_answerAlike (execEncode_answerAlike rfl rfl)
  | decode => exact sameOutcome_of_answerAlike (execDecode_answerAlike rfl rfl)

/-- A step with nothing issued waits (R213). -/
theorem step_of_queue_nil {s : State} (hq : s.queue = []) : step s = .next s := by
  simp [step, issue_nil hq, idle]

/-- A step whose command word does not decode refuses it (R74). -/
theorem step_of_decode_error {s : State} {r : Request} {q : List Request} {e : DecodeError}
    (hq : s.queue = r :: q) (hd : decode r.cmd = .error e) :
    step s = .refused (.reservedCommand e) := by
  simp [step, issue_cons hq, hd]

/-- In AwaitingLength no step shows the expected length. -/
theorem step_withLength (l : Byte) {s : State} (h : s.rx.state = .awaitingLength)
    (hacc : s.rx.acc = []) : sameOutcomeButLength (step s) (step (s.withLength l)) := by
  cases hq : s.queue with
  | nil =>
    rw [step_of_queue_nil hq, step_of_queue_nil (s := s.withLength l) hq]
    exact sameButLength_withLength s l
  | cons r q =>
    cases hd : decode r.cmd with
    | error e =>
      rw [step_of_decode_error hq hd, step_of_decode_error (s := s.withLength l) hq hd]
      exact sameOutcomeButLength_refl _
    | ok i =>
      rw [step_of_decode hq hd, step_of_decode (s := s.withLength l) hq hd, withLength_drive]
      exact exec_withLength i l h hacc

/-- One step of the simulation of R30. -/
theorem step_sameOutcome {s t : State} (hs : s.inv = true) (ht : t.inv = true) (h : s.sameButLength t) :
    sameOutcomeButLength (step s) (step t) := by
  obtain ⟨l, rfl⟩ := (sameButLength_iff s t).1 h
  obtain heq | ⟨hstate, hacc⟩ := withLength_eq_self_or_awaiting hs ht
  · rw [heq]
    exact sameOutcomeButLength_refl _
  · exact step_withLength l hstate hacc

/-- Settles O54, by induction on the number of steps: each keeps the simulation and, by O50, the
invariant of both states. -/
theorem expectedLengthIsHidden : Obligations.ExpectedLengthIsHidden := by
  intro k
  induction k with
  | zero => exact fun s t _ _ h => h
  | succ k ih =>
    intro s t hs ht h
    obtain ⟨s', t', hs', ht', h'⟩ | ⟨e, hs', ht'⟩ | ⟨r, hs', ht'⟩ :=
      sameOutcomeButLength_cases (step_sameOutcome hs ht h)
    · rw [run_next k hs', run_next k ht']
      exact ih s' t' (stepKeepsInvariant s s' hs hs') (stepKeepsInvariant t t' ht ht') h'
    · rw [run_fault k hs', run_fault k ht']
      exact sameOutcomeButLength_refl _
    · rw [run_refused k hs', run_refused k ht']
      exact sameOutcomeButLength_refl _

end Sys2Proof.Machine
end

section
/-! SUPPORT. The family 20_memory.md: what each operation makes of the receiver's buffer, and what the
buffer holds while a frame is incomplete. -/

namespace Sys2Proof.Machine

/-! ### What one operation makes of the buffer -/

/-- A completed frame, delivered or not, has a result other than Nothing (R133, R134). -/
theorem frameResult_ne_nothing (c : Config) (f : List Byte) : frameResult c f ≠ .nothing := by
  obtain ⟨-, h⟩ | ⟨-, raw, -, h⟩ := frameResult_cases c f <;> rw [h] <;> nofun

/-- FEED appends its byte and returns Nothing, or completes a frame and empties the buffer (R41, R43). -/
theorem execFeed_acc {b : Byte} {s t : State} (h : execFeed b s = .next t) :
    (t.result = some .nothing ∧ t.rx.acc = s.rx.acc ++ [b]) ∨
    (t.result ≠ some .nothing ∧ t.rx.acc = []) := by
  obtain ⟨-, h'⟩ | ⟨-, -, h'⟩ | ⟨-, -, h'⟩ | ⟨-, -, -, h'⟩ := execFeed_cases b s <;>
    rw [h'] at h <;> cases h
  · exact .inl ⟨rfl, rfl⟩
  · exact .inl ⟨rfl, rfl⟩
  · exact .inr ⟨fun hr => frameResult_ne_nothing _ _ (Option.some.inj hr), rfl⟩

/-- An outcome that writes at most a result keeps the receiver (R169). -/
theorem rx_of_answerAlike {s t : State} {o : Host.Outcome State Fault Refusal}
    (h : AnswerAlike s s o o) (ht : o = .next t) : t.rx = s.rx := by
  obtain ⟨r, hr, -⟩ | ⟨a, ha, -⟩ := h
  · rw [hr] at ht; cases ht
  · rw [ha] at ht; cases ht; rfl

theorem execEncode_rx {s t : State} (h : execEncode s = .next t) : t.rx = s.rx :=
  rx_of_answerAlike (execEncode_answerAlike rfl rfl) h

theorem execDecode_rx {s t : State} (h : execDecode s = .next t) : t.rx = s.rx :=
  rx_of_answerAlike (execDecode_answerAlike rfl rfl) h

theorem execReset_acc {s t : State} (h : execReset s = .next t) : t.rx.acc = [] := by
  rw [execReset_eq] at h
  cases h
  rfl

/-! ### The buffer of an incomplete frame -/

/-- The state after a FEED that leaves the frame with length byte `l` incomplete, with the bytes `acc`
in the buffer (R131, R132). -/
def State.inFrame (s : State) (l : Byte) (acc : List Byte) : State :=
  (s.setRx { state := .accumulating, acc := acc, expectedLength := l }).setResult .nothing

/-- A length byte fed to an empty buffer begins its frame (R131). -/
theorem execFeed_begins_frame (l : Byte) {s : State} (h : s.rx.state = .awaitingLength)
    (hacc : s.rx.acc = []) : execFeed l s = .next (s.inFrame l [l]) := by
  rw [execFeed_length l h (by simp [hacc]), hacc]
  rfl

/-- A byte fed below the count goes to the end of the buffer (R132). -/
theorem execFeed_inFrame (b : Byte) (s : State) {l : Byte} {acc : List Byte} (h : acc.length < l.toNat) :
    execFeed b (s.inFrame l acc) = .next (s.inFrame l (acc ++ [b])) :=
  execFeed_below (s := s.inFrame l acc) b rfl h

/-- While the count of R24(b) is not reached, the bytes fed stand behind those the buffer held, in
order, by induction on the bytes. -/
theorem runFeeds_inFrame (bs : List Byte) (s : State) {l : Byte} {acc : List Byte} (hacc : 0 < acc.length)
    (hcount : acc.length + bs.length < max 2 (1 + l.toNat)) :
    runFeeds bs (s.inFrame l acc) =
      some (List.replicate bs.length .nothing, s.inFrame l (acc ++ bs)) := by
  induction bs generalizing acc with
  | nil => rw [runFeeds_nil, List.append_nil]; rfl
  | cons b bs ih =>
    rw [List.length_cons] at hcount
    have hbelow : acc.length < l.toNat := by omega
    have hlen : (acc ++ [b]).length = acc.length + 1 := List.length_append
    rw [runFeeds_cons bs (execFeed_inFrame b s hbelow) rfl, ih (by omega) (by omega),
      List.append_assoc]
    rfl

/-- The bytes of a frame fed to an idle receiver, its length byte first, up to before the last one. -/
theorem runFeeds_incomplete_frame {s : State} {l : Byte} {bs : List Byte}
    (h : s.rx.state = .awaitingLength) (hacc : s.rx.acc = [])
    (hcount : bs.length + 1 < max 2 (1 + l.toNat)) :
    runFeeds (l :: bs) s =
      some (List.replicate (bs.length + 1) .nothing, s.inFrame l (l :: bs)) := by
  have hrun := runFeeds_inFrame bs s (l := l) (acc := [l]) Nat.one_pos
    (by rw [List.length_singleton]; omega)
  rw [runFeeds_cons bs (execFeed_begins_frame l h hacc) rfl, hrun]
  rfl

/-- Settles O22, operation by operation, and for a partial frame by the run of its FEEDs. -/
theorem bufferHoldsBytesFed : Obligations.BufferHoldsBytesFed := by
  refine ⟨fun i s t h => ?_, fun s l bs hs hacc hcount => runFeeds_incomplete_frame hs hacc hcount⟩
  cases i with
  | feed b =>
    obtain h' | h' := execFeed_acc h
    · exact .inl ⟨b, rfl, h'⟩
    · exact .inr (.inl ⟨b, rfl, h'⟩)
  | reset  => exact .inr (.inr (.inl ⟨rfl, execReset_acc h⟩))
  | encode => exact .inr (.inr (.inr ⟨.inl rfl, congrArg Receiver.acc (execEncode_rx h)⟩))
  | decode => exact .inr (.inr (.inr ⟨.inr rfl, congrArg Receiver.acc (execDecode_rx h)⟩))

end Sys2Proof.Machine
end

section
/-! SUPPORT. The family 30_encoding.md: the command words, the layout of a frame and its fields, and the
split of a stream of frames. -/

namespace Sys2Proof.Machine

/-! ### Command words -/

/-- A row covers a word by `(cmd & mask) = match` (R72). -/
theorem covers_iff (r : OpcodeRow) (w : CmdWord) : r.covers w = true ↔ w &&& r.mask = r.value := by
  simp [OpcodeRow.covers]

theorem mnemonic_withImm8 (b : Byte) (i : Instr) : (i.withImm8 b).mnemonic = i.mnemonic := by
  cases i <;> rfl

/-- The opcode 0x01 is FEED's, whatever imm8 is (R72). -/
theorem decode_of_opcode_one {w : CmdWord} (h : w.toNat / 256 = 1) :
    decode w = .ok (.feed (imm8Field w)) := by
  obtain ⟨-, hd⟩ | ⟨rfl, -⟩ | ⟨rfl, -⟩ | ⟨rfl, -⟩ | ⟨hne, -⟩ := decode_cases w
  · exact hd
  all_goals contradiction

/-- A word that is a row's decodes to the row's operation: the rows exclude each other (R72). -/
theorem decode_of_covers {r : OpcodeRow} {w : CmdWord} (hr : r ∈ opcodeMap) (h : r.covers w = true) :
    decode w = .ok (r.sample.withImm8 (imm8Field w)) := by
  rw [covers_iff] at h
  simp only [opcodeMap, List.mem_cons, List.not_mem_nil, or_false] at hr
  obtain rfl | rfl | rfl | rfl := hr
  · exact decode_of_opcode_one ((and_FF00_eq_iff w).1 h)
  all_goals
    obtain rfl := (and_FFFF w).symm.trans h
    rfl

/-- FEED's word is 0x0100 plus its byte (R71, R72). -/
theorem toNat_encode_feed (b : Byte) : (encode (.feed b)).toNat = 256 + b.toNat :=
  toNat_append_add (0x01 : Byte) b

theorem imm8Field_encode_feed (b : Byte) : imm8Field (encode (.feed b)) = b := by
  apply BitVec.eq_of_toNat_eq
  rw [toNat_imm8Field, toNat_encode_feed]
  omega

/-- A word with the opcode 0x01 is FEED's word for its imm8 (R71, R72). -/
theorem encode_feed_imm8Field {w : CmdWord} (h : w.toNat / 256 = 1) :
    encode (.feed (imm8Field w)) = w := by
  apply BitVec.eq_of_toNat_eq
  rw [toNat_encode_feed, toNat_imm8Field]
  omega

theorem decode_encode (i : Instr) : decode (encode i) = .ok i := by
  cases i with
  | feed b =>
    have hop : (encode (.feed b)).toNat / 256 = 1 := by rw [toNat_encode_feed]; omega
    rw [decode_of_opcode_one hop, imm8Field_encode_feed]
  | reset  => rfl
  | encode => rfl
  | decode => rfl

theorem encode_of_decode {w : CmdWord} {i : Instr} (h : decode w = .ok i) : encode i = w := by
  obtain ⟨hop, hd⟩ | ⟨rfl, hd⟩ | ⟨rfl, hd⟩ | ⟨rfl, hd⟩ | ⟨-, -, -, -, hd⟩ := decode_cases w <;>
    rw [hd] at h <;> cases h
  · exact encode_feed_imm8Field hop
  all_goals rfl

theorem instr_wf (i : Instr) : i.wf = true := by
  cases i <;> rfl

/-- The table's numbering names every command word by its value (R71). -/
theorem tableWord_toNat (w : CmdWord) : tableWord 16 w.toNat = some w := by
  rw [tableWord, Nat.mod_eq_of_lt w.isLt, if_pos w.isLt, BitVec.ofNat_toNat, BitVec.setWidth_eq]

/-- The words that do not decode are those R74 reserves. -/
theorem decode_error_iff (w : CmdWord) :
    (∃ e, decode w = .error e) ↔
      (w.toNat / 256 = 0 ∨ 5 ≤ w.toNat / 256 ∨
        (2 ≤ w.toNat / 256 ∧ w.toNat / 256 ≤ 4 ∧ w.toNat % 256 ≠ 0)) := by
  obtain ⟨hop, hd⟩ | ⟨rfl, hd⟩ | ⟨rfl, hd⟩ | ⟨rfl, hd⟩ | ⟨h1, h2, h3, h4, hd⟩ := decode_cases w <;>
    rw [hd]
  · exact iff_of_false nofun (by omega)
  · exact iff_of_false nofun (by decide)
  · exact iff_of_false nofun (by decide)
  · exact iff_of_false nofun (by decide)
  · have h2 : w.toNat ≠ 0x0200 := BitVec.toNat_ne_iff_ne.2 h2
    have h3 : w.toNat ≠ 0x0300 := BitVec.toNat_ne_iff_ne.2 h3
    have h4 : w.toNat ≠ 0x0400 := BitVec.toNat_ne_iff_ne.2 h4
    exact iff_of_true ⟨_, rfl⟩ (by omega)

/-- A step refuses a request as reserved exactly when its command word does not decode (R74). -/
theorem step_reserved_iff {s : State} {r : Request} {q : List Request} (hq : s.queue = r :: q) :
    (∃ e, step s = .refused (.reservedCommand e)) ↔ ∃ e, decode r.cmd = .error e := by
  cases hd : decode r.cmd with
  | error e => exact iff_of_true ⟨e, step_of_decode_error hq hd⟩ ⟨e, rfl⟩
  | ok i =>
    rw [step_of_decode hq hd]
    exact iff_of_false (fun ⟨e, he⟩ => exec_ne_reserved i _ e he) nofun

/-- Settles O9: the opcode names the operation, and imm8 is FEED's byte (R71, R72). -/
theorem decodeAfterEncode : Obligations.DecodeAfterEncode :=
  fun i _ => ⟨decode_encode i, decodeTableWord_eq_some_iff.2 ⟨_, tableWord_toNat _, decode_encode i⟩⟩

/-- Settles O5: a step refuses what the decoder rejects, and no operation refuses its word. -/
theorem reservedCommandWordsRefused : Obligations.ReservedCommandWordsRefused :=
  fun _ r _ hq => (step_reserved_iff hq).trans (decode_error_iff r.cmd)

/-- Settles O8, row by row. -/
theorem opcodeMapSelectsByMask : Obligations.OpcodeMapSelectsByMask := by
  intro w
  have hrow (r : OpcodeRow) (hr : r ∈ opcodeMap) (h : w &&& r.mask = r.value) :=
    decode_of_covers hr ((covers_iff r w).2 h)
  have himm8 : imm8Field w = BitVec.ofNat 8 (w.toNat % 256) := by
    rw [← toNat_imm8Field, BitVec.ofNat_toNat, BitVec.setWidth_eq]
  rw [← himm8]
  exact ⟨hrow ⟨0xFF00, 0x0100, .feed 0x00⟩ (by decide), hrow ⟨0xFFFF, 0x0200, .reset⟩ (by decide),
    hrow ⟨0xFFFF, 0x0300, .encode⟩ (by decide), hrow ⟨0xFFFF, 0x0400, .decode⟩ (by decide)⟩

/-- Settles O10: the row that covers a word gives its meaning, so two rows that cover it agree. -/
theorem encodeAfterDecode : Obligations.EncodeAfterDecode := by
  intro w i h
  refine ⟨instr_wf i, encode_of_decode h, fun r hr hc => ?_⟩
  obtain rfl : i = r.sample.withImm8 (imm8Field w) :=
    Except.ok.inj (h.symm.trans (decode_of_covers hr hc))
  exact (mnemonic_withImm8 _ _).symm

/-- Settles O7: the decoder evaluated on each word. -/
theorem commandWordsReadAsSpecified : Obligations.CommandWordsReadAsSpecified :=
  ⟨rfl, rfl, rfl, rfl, rfl, rfl, rfl, rfl, rfl⟩

/-! ### The layout of a frame -/

@[simp] theorem length_indexBytes (i : Index) : (indexBytes i).length = 4 := rfl

/-- The frame of a TypeTagged message (R62). -/
theorem serialize_typeTagged {c : Config} {m : Message} {t : Byte} (hv : c.variant = .typeTagged)
    (ht : m.type = some t) (hl : m.payload.length ≤ 250) :
    serialize c m = .ok (BitVec.ofNat 8 (5 + m.payload.length) :: t :: (indexBytes m.index ++ m.payload)) := by
  have hH := headerSize_typeTagged hv
  rw [serialize_fits (by omega), hH]
  simp [typeField, hv, ht]

/-- The frame of an IndexOnly message (R63). -/
theorem serialize_indexOnly {c : Config} {m : Message} (hv : c.variant = .indexOnly)
    (hl : m.payload.length ≤ 251) :
    serialize c m = .ok (BitVec.ofNat 8 (4 + m.payload.length) :: (indexBytes m.index ++ m.payload)) := by
  have hH := headerSize_indexOnly hv
  rw [serialize_fits (by omega), hH]
  simp [typeField, hv]

/-- A well-formed message with its frame, in the two forms they can have (R27, R62, R63). -/
theorem serialize_wf_cases {c : Config} {m : Message} (h : m.wf c = true) :
    (c.variant = .typeTagged ∧ ∃ t, m.type = some t ∧ c.isTypeCode t = true ∧ m.payload.length ≤ 250 ∧
      serialize c m =
        .ok (BitVec.ofNat 8 (5 + m.payload.length) :: t :: (indexBytes m.index ++ m.payload))) ∨
    (c.variant = .indexOnly ∧ m.type = none ∧ m.payload.length ≤ 251 ∧
      serialize c m = .ok (BitVec.ofNat 8 (4 + m.payload.length) :: (indexBytes m.index ++ m.payload))) := by
  obtain ⟨htype, hfits⟩ := (wf_iff c m).1 h
  obtain ⟨hv, t, ht, hcode⟩ | ⟨hv, ht⟩ := typeOk_cases htype
  · rw [headerSize_typeTagged hv] at hfits
    have hl : m.payload.length ≤ 250 := by omega
    exact .inl ⟨hv, t, ht, hcode, hl, serialize_typeTagged hv ht hl⟩
  · rw [headerSize_indexOnly hv] at hfits
    have hl : m.payload.length ≤ 251 := by omega
    exact .inr ⟨hv, ht, hl, serialize_indexOnly hv hl⟩

/-- The length prefix of a well-formed message's frame counts the bytes after it (R61). -/
theorem serialize_wf_length {c : Config} {m : Message} (h : m.wf c = true) :
    ∃ l rest, serialize c m = .ok (l :: rest) ∧ l.toNat = rest.length ∧
      rest.length = c.headerSize + m.payload.length ∧ rest.length ≤ 255 := by
  obtain ⟨hv, t, -, -, hl, hs⟩ | ⟨hv, -, hl, hs⟩ := serialize_wf_cases h
  · refine ⟨_, _, hs, ?_⟩
    rw [headerSize_typeTagged hv, BitVec.toNat_ofNat, List.length_cons, List.length_append,
      length_indexBytes]
    omega
  · refine ⟨_, _, hs, ?_⟩
    rw [headerSize_indexOnly hv, BitVec.toNat_ofNat, List.length_append, length_indexBytes]
    omega

/-- An index byte is the index shifted down, cut to eight bits (R64). -/
theorem indexBytes_eq_ofNat (i : Index) :
    indexBytes i = [BitVec.ofNat 8 (i.toNat / 2 ^ 24), BitVec.ofNat 8 (i.toNat / 2 ^ 16),
      BitVec.ofNat 8 (i.toNat / 2 ^ 8), BitVec.ofNat 8 i.toNat] := by
  have hbyte (k : Nat) : i.extractLsb' k 8 = BitVec.ofNat 8 (i.toNat / 2 ^ k) := by
    apply BitVec.eq_of_toNat_eq
    rw [toNat_indexByte, BitVec.toNat_ofNat]
  simp only [indexBytes, hbyte, Nat.pow_zero, Nat.div_one]

/-- The bytes of an index as numbers; the top one needs no reduction (R64). -/
theorem map_toNat_indexBytes (i : Index) :
    (indexBytes i).map BitVec.toNat =
      [i.toNat / 2 ^ 24, i.toNat / 2 ^ 16 % 256, i.toNat / 2 ^ 8 % 256, i.toNat % 256] := by
  have htop : i.toNat / 2 ^ 24 < 256 := by have := i.isLt; omega
  simp only [indexBytes, List.map_cons, List.map_nil, toNat_indexByte, Nat.mod_eq_of_lt htop,
    Nat.pow_zero, Nat.div_one]

/-- A well-formed message's frame holds the index bytes at the index offset (R64). -/
theorem take_drop_indexOffset {c : Config} {m : Message} {f : List Byte} (h : m.wf c = true)
    (hf : serialize c m = .ok f) : (f.drop c.indexOffset).take 4 = indexBytes m.index := by
  obtain ⟨hv, t, -, -, -, hs⟩ | ⟨hv, -, -, hs⟩ := serialize_wf_cases h <;>
    obtain rfl := Except.ok.inj (hf.symm.trans hs)
  · rw [Config.indexOffset, headerSize_typeTagged hv]; rfl
  · rw [Config.indexOffset, headerSize_indexOnly hv]; rfl

/-- What deserialize reads as the index stands at the index offset (R64, R106). -/
theorem deserialize_index {c : Config} {f : List Byte} {m : Message} (h : deserialize c f = .ok m) :
    ∃ b3 b2 b1 b0, (f.drop c.indexOffset).take 4 = [b3, b2, b1, b0] ∧
      m.index = indexOfBytes b3 b2 b1 b0 := by
  obtain ⟨-, hd⟩ | ⟨hv, l, t, b3, b2, b1, b0, p, rfl, hd⟩ | ⟨hv, l, b3, b2, b1, b0, p, rfl, hd⟩ :=
    deserialize_cases c f <;> rw [hd] at h <;> cases h
  · refine ⟨b3, b2, b1, b0, ?_, rfl⟩
    rw [Config.indexOffset, headerSize_typeTagged hv]; rfl
  · refine ⟨b3, b2, b1, b0, ?_, rfl⟩
    rw [Config.indexOffset, headerSize_indexOnly hv]; rfl

/-- Settles O27: the layout is `serialize_typeTagged`. -/
theorem typeTaggedLayout : Obligations.TypeTaggedLayout := by
  intro c m t hv ht hl
  refine ⟨_, serialize_typeTagged hv ht hl, ?_⟩
  rw [indexBytes_eq_ofNat]
  refine ⟨?_, rfl, rfl, rfl, rfl, rfl, rfl, fun k => ?_⟩
  · simp only [List.length_cons, List.length_append, List.length_nil]; omega
  · rw [Nat.add_comm 6 k]; rfl

/-- Settles O28: the layout is `serialize_indexOnly`. -/
theorem indexOnlyLayout : Obligations.IndexOnlyLayout := by
  intro c m hv hl
  refine ⟨_, serialize_indexOnly hv hl, ?_⟩
  rw [indexBytes_eq_ofNat]
  refine ⟨?_, rfl, rfl, rfl, rfl, rfl, fun k => ?_⟩
  · simp only [List.length_cons, List.length_append, List.length_nil]; omega
  · rw [Nat.add_comm 5 k]; rfl

/-- The type byte of a well-formed TypeTagged message's frame is a type code (R68). -/
theorem serialize_type_byte {c : Config} {m : Message} {l : Byte} {rest : List Byte} (h : m.wf c = true)
    (hs : serialize c m = .ok (l :: rest)) (hv : c.variant = .typeTagged) :
    ∃ t, rest.head? = some t ∧ (t ∈ c.knownTypes ∨ t = 0xFF) := by
  obtain ⟨-, t, -, hcode, -, hs'⟩ | ⟨hv', -⟩ := serialize_wf_cases h
  · cases hs.symm.trans hs'
    exact ⟨t, rfl, (isTypeCode_iff c t).1 hcode⟩
  · cases hv.symm.trans hv'

/-- Settles O29: the prefix counts the bytes after it, and the type is a type code. -/
theorem serializedFrameRanges : Obligations.SerializedFrameRanges := by
  intro c m h
  obtain ⟨l, rest, hs, hcount, hlen, hmax⟩ := serialize_wf_length h
  have hpayload : m.payload.length ≤ c.maxPayload := by rw [maxPayload_eq]; omega
  exact ⟨l, rest, hs, hcount, by omega, by omega, by omega, hpayload, serialize_type_byte h hs⟩

/-- Settles O31: written and read, the index stands at the index offset. -/
theorem indexIsBigEndian : Obligations.IndexIsBigEndian := by
  constructor
  · intro c m h
    obtain ⟨l, rest, hs, -⟩ := serialize_wf_length h
    exact ⟨_, hs, rfl, by rw [take_drop_indexOffset h hs, map_toNat_indexBytes]⟩
  · intro c f m h
    obtain ⟨b3, b2, b1, b0, hbytes, hindex⟩ := deserialize_index h
    exact ⟨b3, b2, b1, b0, hbytes, by rw [hindex, toNat_indexOfBytes]⟩

/-! ### Type coercion and the wrong variant -/

theorem coerce_of_known {c : Config} {t : Byte} (h : t ∈ c.knownTypes) : c.coerce t = t :=
  if_pos ((isKnown_iff c t).2 h)

theorem coerce_of_unknown {c : Config} {t : Byte} (h : t ∉ c.knownTypes) : c.coerce t = 0xFF :=
  if_neg (mt (isKnown_iff c t).1 h)

theorem coerce_coerce (c : Config) (t : Byte) : c.coerce (c.coerce t) = c.coerce t :=
  (coerce_eq_self_iff c _).2 (isTypeCode_coerce c t)

/-- UNDEFINED is a type code, known or not. -/
theorem coerce_undefined (c : Config) : c.coerce 0xFF = 0xFF :=
  (coerce_eq_self_iff c _).2 ((isTypeCode_iff c _).2 (.inr rfl))

/-- Settles O32: no case of deserialize looks at the type byte but to coerce it (R66, R108). -/
theorem typeCoercion : Obligations.TypeCoercion := by
  intro c _
  refine ⟨fun t => ⟨coerce_of_known, coerce_of_unknown, coerce_coerce c t⟩, coerce_undefined c, ?_⟩
  intro hv l t rest hlen
  match rest, hlen with
  | b3 :: b2 :: b1 :: b0 :: p, _ => exact ⟨_, deserialize_typeTagged hv l t b3 b2 b1 b0 p, rfl⟩

/-- Fewer than H + 1 bytes do not decode (R105). -/
theorem deserialize_short {c : Config} {f : List Byte} (h : f.length < c.headerSize + 1) :
    deserialize c f = .error .truncatedFrame := by
  cases hd : deserialize c f with
  | error e => rw [(deserialize_error hd).1]
  | ok m =>
    obtain ⟨-, hlen⟩ := deserialize_ok hd
    omega

/-- Settles O36: each frame through the other variant's layout; five bytes are too few for
TypeTagged (R105). -/
theorem variantMismatchUndetected : Obligations.VariantMismatchUndetected := by
  refine ⟨fun c l t b3 b2 b1 b0 p hv => ?_, fun c l b3 b2 b1 b0 p hv => ⟨?_, ?_⟩⟩
  · exact ⟨_, deserialize_indexOnly hv l t b3 b2 b1 (b0 :: p), toNat_indexOfBytes t b3 b2 b1, rfl, rfl⟩
  · rintro rfl
    exact deserialize_short (by simp [headerSize_typeTagged hv])
  · rintro p0 rest rfl
    exact ⟨_, deserialize_typeTagged hv l b3 b2 b1 b0 p0 rest, toNat_indexOfBytes b2 b1 b0 p0, rfl, rfl⟩

/-! ### A stream of frames -/

/-- Every well-formed message comes back from its frame (R111). -/
theorem deserialize_serialize {c : Config} {m : Message} {f : List Byte} (h : m.wf c = true)
    (hf : serialize c m = .ok f) : deserialize c f = .ok m := by
  have hindex := indexOfBytes_indexBytes m.index
  obtain ⟨hv, t, ht, hcode, -, hs⟩ | ⟨hv, ht, -, hs⟩ := serialize_wf_cases h <;>
    obtain rfl := Except.ok.inj (hf.symm.trans hs)
  · refine (deserialize_typeTagged hv ..).trans ?_
    rw [hindex, (coerce_eq_self_iff c t).2 hcode, ← ht]
    rfl
  · refine (deserialize_indexOnly hv ..).trans ?_
    rw [hindex, ← ht]
    rfl

/-- The block after a completed frame `f`: a fresh receiver and the frame's result (R133, R134). -/
def State.afterFrame (s : State) (f : List Byte) : State :=
  (s.setRx Receiver.fresh).setResult (frameResult s.cfg f)

@[simp] theorem afterFrame_cfg (s : State) (f : List Byte) : (s.afterFrame f).cfg = s.cfg := rfl

/-- The last byte of a frame completes it (R133, R134). -/
theorem execFeed_completes_frame (b : Byte) (s : State) {l : Byte} {acc : List Byte}
    (hroom : acc.length < 256) (h : l.toNat ≤ acc.length) :
    execFeed b (s.inFrame l acc) = .next (s.afterFrame (acc ++ [b])) :=
  execFeed_complete (s := s.inFrame l acc) b rfl hroom h

/-- Two runs of FEEDs, the second from where the first ended, are one run. -/
theorem runFeeds_append_of_eq {as bs : List Byte} {s u t : State} {rs rs' : List Result}
    (h : runFeeds as s = some (rs, u)) (h' : runFeeds bs u = some (rs', t)) :
    runFeeds (as ++ bs) s = some (rs ++ rs', t) := by
  rw [runFeeds_append, h, Option.bind_some, h']
  rfl

/-- A frame of max(2, 1 + L) bytes fed to an idle receiver gives Nothing for every byte but the last
(R137). -/
theorem runFeeds_complete_frame {s : State} {l : Byte} {bs : List Byte}
    (h : s.rx.state = .awaitingLength) (hacc : s.rx.acc = [])
    (hcount : bs.length + 1 = max 2 (1 + l.toNat)) :
    runFeeds (l :: bs) s =
      some (List.replicate bs.length .nothing ++ [frameResult s.cfg (l :: bs)], s.afterFrame (l :: bs)) := by
  obtain rfl | ⟨bs, b, rfl⟩ := List.eq_nil_or_concat' bs
  · rw [List.length_nil] at hcount; omega
  have hl := l.isLt
  rw [List.length_append, List.length_singleton] at hcount
  have hlast : execFeed b (s.inFrame l (l :: bs)) = .next (s.afterFrame (l :: bs ++ [b])) :=
    execFeed_completes_frame b s (by rw [List.length_cons]; omega) (by rw [List.length_cons]; omega)
  rw [List.length_append, List.length_singleton]
  exact runFeeds_append_of_eq (runFeeds_incomplete_frame h hacc (by omega)) (runFeeds_cons [] hlast rfl)

/-- The frame of a well-formed message fed to an idle receiver delivers the message on the last byte
(R140). -/
theorem runFeeds_serialize {s : State} {m : Message} {f : List Byte} (h : s.rx.state = .awaitingLength)
    (hacc : s.rx.acc = []) (hm : m.wf s.cfg = true) (hf : serialize s.cfg m = .ok f) :
    runFeeds f s = some (List.replicate (f.length - 1) .nothing ++ [.frame m (untransform s.cfg m)],
      s.afterFrame f) := by
  have hresult : frameResult s.cfg f = .frame m (untransform s.cfg m) := by
    simp [frameResult, deserialize_serialize hm hf]
  obtain ⟨l, rest, hs, hcount, hlen, -⟩ := serialize_wf_length hm
  obtain rfl := Except.ok.inj (hf.symm.trans hs)
  have hH := headerSize_bounds s.cfg
  rw [runFeeds_complete_frame h hacc (by omega), hresult]
  rfl

/-- Settles O21, by induction on the messages: each frame delivers its message and leaves the receiver
as idle as it found it. -/
theorem streamOfFramesIsSplit : Obligations.StreamOfFramesIsSplit := by
  intro s ms
  induction ms generalizing s with
  | nil =>
    intro fs h hacc _ hfs
    obtain rfl : fs = [] := List.map_eq_nil_iff.1 hfs.symm
    exact ⟨[], s, rfl, h, hacc, rfl⟩
  | cons m ms ih =>
    intro fs h hacc hwf hfs
    obtain ⟨f, fs, rfl, hf, hfs⟩ := List.map_eq_cons_iff.1 hfs.symm
    obtain ⟨hm, hms⟩ := List.forall_mem_cons.1 hwf
    obtain ⟨rs, t, hrun, ht, htacc, hdel⟩ := ih (s.afterFrame f) fs rfl rfl hms hfs.symm
    have hfirst := runFeeds_serialize h hacc hm hf.symm
    refine ⟨_, t, runFeeds_append_of_eq hfirst hrun, ht, htacc, ?_⟩
    rw [List.filter_append, hdel]
    simp

end Sys2Proof.Machine
end

section
/-! SUPPORT. The family 40_message_codec.md: the error of serialize, the fields that deserialize reads,
and the two round trips between a message and its frame. -/

namespace Sys2Proof.Machine

/-! ### From a message to its frame and back -/

/-- Settles O34: a well-formed message has a frame, and `deserialize_serialize` reads it back. -/
theorem codecRoundTrip : Obligations.CodecRoundTrip := by
  intro c m h
  obtain ⟨l, rest, hs, -⟩ := serialize_wf_length h
  exact ⟨l :: rest, hs, deserialize_serialize h hs⟩

/-! ### The fields that deserialize reads -/

/-- Settles O30: the fields stand where the layout of each variant puts them. -/
theorem deserializeFields : Obligations.DeserializeFields := by
  refine fun c f hmax => ⟨deserialize_short, fun hmin => ?_⟩
  obtain ⟨hshort, -⟩ | ⟨hv, l, t, b3, b2, b1, b0, p, rfl, hd⟩ | ⟨hv, l, b3, b2, b1, b0, p, rfl, hd⟩ :=
    deserialize_cases c f
  · omega
  · refine ⟨_, b3, b2, b1, b0, hd, ?_⟩
    rw [headerSize_typeTagged hv]
    exact ⟨rfl, rfl, rfl, rfl, toNat_indexOfBytes .., fun _ => rfl,
      fun hv' => (nomatch hv.symm.trans hv'), rfl, wf_of_deserialize hd hmax⟩
  · refine ⟨_, b3, b2, b1, b0, hd, ?_⟩
    rw [headerSize_indexOnly hv]
    exact ⟨rfl, rfl, rfl, rfl, toNat_indexOfBytes ..,
      fun hv' => (nomatch hv.symm.trans hv'), fun _ => rfl, rfl, wf_of_deserialize hd hmax⟩

/-- At least H + 1 bytes decode (R105). -/
theorem deserialize_of_long {c : Config} {f : List Byte} (h : c.headerSize + 1 ≤ f.length) :
    ∃ m, deserialize c f = .ok m := by
  cases hd : deserialize c f with
  | ok m => exact ⟨m, rfl⟩
  | error e =>
    obtain ⟨-, hshort⟩ := deserialize_error hd
    omega

/-- The payload is the remainder (R106). -/
theorem deserialize_payload {c : Config} {f : List Byte} {m : Message} (h : deserialize c f = .ok m) :
    m.payload = f.drop (c.headerSize + 1) := by
  obtain ⟨-, hd⟩ | ⟨hv, l, t, b3, b2, b1, b0, p, rfl, hd⟩ | ⟨hv, l, b3, b2, b1, b0, p, rfl, hd⟩ :=
    deserialize_cases c f <;> rw [hd] at h <;> cases h
  · rw [headerSize_typeTagged hv]; rfl
  · rw [headerSize_indexOnly hv]; rfl

/-- Byte 0 makes no difference to deserialize (R107). -/
theorem deserialize_byte_zero (c : Config) (l l' : Byte) (rest : List Byte) :
    deserialize c (l :: rest) = deserialize c (l' :: rest) := by
  obtain ⟨hshort, hd⟩ | ⟨hv, k, t, b3, b2, b1, b0, p, hf, hd⟩ | ⟨hv, k, b3, b2, b1, b0, p, hf, hd⟩ :=
    deserialize_cases c (l :: rest) <;> rw [hd]
  · exact (deserialize_short (f := l' :: rest) hshort).symm
  · cases hf; exact (deserialize_typeTagged hv l' t b3 b2 b1 b0 p).symm
  · cases hf; exact (deserialize_indexOnly hv l' b3 b2 b1 b0 p).symm

/-- Settles O33: the message is the one that byte 0 equal to `l` gives. -/
theorem lengthByteNotRevalidated : Obligations.LengthByteNotRevalidated := by
  intro c l rest hmin
  obtain ⟨m, hd⟩ := deserialize_of_long (c := c) (f := l :: rest) (by rw [List.length_cons]; omega)
  have hpayload : m.payload = rest.drop c.headerSize := deserialize_payload hd
  refine ⟨m, fun l' => (deserialize_byte_zero c l' l rest).trans hd, hpayload, fun hl => ?_⟩
  rw [hpayload, List.length_drop, hl]

/-! ### From a frame to its message and back -/

/-- A frame made again from the message it decodes to: byte 0 becomes the count of the bytes after it,
the type byte is coerced, and every other byte is kept (R112). -/
theorem serialize_deserialize_cases {c : Config} {f : List Byte} (hmin : c.headerSize + 1 ≤ f.length)
    (hmax : f.length ≤ 256) :
    ∃ m g, deserialize c f = .ok m ∧ serialize c m = .ok (BitVec.ofNat 8 (f.length - 1) :: g) ∧
      ((c.variant = .typeTagged ∧ ∃ l t rest, f = l :: t :: rest ∧ g = c.coerce t :: rest) ∨
       (c.variant = .indexOnly ∧ ∃ l, f = l :: g)) := by
  obtain ⟨hshort, -⟩ | ⟨hv, l, t, b3, b2, b1, b0, p, rfl, hd⟩ | ⟨hv, l, b3, b2, b1, b0, p, rfl, hd⟩ :=
    deserialize_cases c f
  · omega
  · have hp : p.length ≤ 250 := by simp only [List.length_cons] at hmax; omega
    refine ⟨_, _, hd, ?_, .inl ⟨hv, l, t, _, rfl, rfl⟩⟩
    rw [serialize_typeTagged hv rfl hp, indexBytes_indexOfBytes, Nat.add_comm]
    rfl
  · have hp : p.length ≤ 251 := by simp only [List.length_cons] at hmax; omega
    refine ⟨_, _, hd, ?_, .inr ⟨hv, l, rfl⟩⟩
    rw [serialize_indexOnly hv hp, indexBytes_indexOfBytes, Nat.add_comm]
    rfl

/-- Settles O35: of the bytes that are made again, byte 0 and the type byte alone can change, and
coercion keeps exactly the type codes. -/
theorem codecPartialConverse : Obligations.CodecPartialConverse := by
  intro c f hmin hmax
  obtain ⟨m, g, hd, hs, ⟨hv, l, t, rest, rfl, rfl⟩ | ⟨hv, l, rfl⟩⟩ := serialize_deserialize_cases hmin hmax
  · have hcode : c.coerce t = t ↔ t ∈ c.knownTypes ∨ t = 0xFF :=
      (coerce_eq_self_iff c t).trans (isTypeCode_iff c t)
    refine ⟨m, _, hd, hs, rfl, ?_, rfl, (if_pos hv).symm, fun | _ + 2, _ => rfl⟩
    simp [hv, hcode, eq_comm (a := l)]
  · have hv' : c.variant ≠ .typeTagged := by simp [hv]
    refine ⟨m, _, hd, hs, rfl, ?_, rfl, (if_neg hv').symm, fun | _ + 2, _ => rfl⟩
    simp [hv', eq_comm (a := l)]

/-! ### The error of serialize -/

/-- serialize fails exactly when H + n does not fit the length prefix, and then with PayloadTooLarge
(R102). -/
theorem serialize_error_iff (c : Config) (m : Message) (e : Cause) :
    serialize c m = .error e ↔ e = .payloadTooLarge ∧ 255 < c.headerSize + m.payload.length := by
  obtain ⟨hlarge, hs⟩ | ⟨hfits, hs⟩ := serialize_cases c m <;> rw [hs]
  · simp [hlarge, eq_comm]
  · simp [Nat.not_lt.2 hfits]

/-- Settles O26: `serialize_error_iff`, and MAX_PAYLOAD is 255 - H. -/
theorem payloadTooLargeExactly : Obligations.PayloadTooLargeExactly := by
  intro c m
  have hH := headerSize_bounds c
  refine ⟨by simp [serialize_error_iff], by rw [maxPayload_eq]; omega, fun e he => ?_⟩
  exact ((serialize_error_iff c m e).1 he).1

end Sys2Proof.Machine
end

section
/-! SUPPORT. The family 41_receiver.md: the result of a completed frame, what FEED and RESET write, and
the frames that a run of FEEDs takes from the stream. -/

namespace Sys2Proof.Machine

/-! ### The result of a completed frame -/

/-- A frame that decodes is delivered with its recovered message (R133, R135). -/
theorem frameResult_of_deserialize {c : Config} {f : List Byte} {raw : Message}
    (h : deserialize c f = .ok raw) : frameResult c f = .frame raw (untransform c raw) := by
  simp [frameResult, h]

/-- A frame without a whole header is reported (R134). -/
theorem frameResult_short {c : Config} {f : List Byte} (h : f.length < c.headerSize + 1) :
    frameResult c f = .error .truncatedFrame := by
  simp [frameResult, deserialize_short h]

/-- A delivered frame decodes to its raw message, which determines the recovered one (R135). -/
theorem frameResult_eq_frame_iff {c : Config} {f : List Byte} {raw recovered : Message} :
    frameResult c f = .frame raw recovered ↔
      deserialize c f = .ok raw ∧ recovered = untransform c raw := by
  unfold frameResult
  cases deserialize c f with
  | error e => simp
  | ok m    => simp +contextual [eq_comm]

/-! ### The frame of a message, fed byte by byte -/

/-- Settles O20: the second half is the first half for the transformed message, which is well formed
and which the inverse transform takes back to the message (R168). -/
theorem incrementalEquivalence : Obligations.IncrementalEquivalence := by
  intro s m h hacc hm
  have hm' : (transform s.cfg m).wf s.cfg = true := (wf_transform s.cfg m).trans hm
  obtain ⟨l, rest, hf, -⟩ := serialize_wf_length hm
  obtain ⟨l', rest', hf', -⟩ := serialize_wf_length hm'
  have hrun := runFeeds_serialize h hacc hm hf
  have hrun' := runFeeds_serialize h hacc hm' hf'
  rw [untransform_transform] at hrun'
  exact ⟨⟨_, _, hf, hrun, rfl, rfl⟩, ⟨_, _, hf', hrun', rfl, rfl⟩⟩

/-! ### One FEED -/

/-- FEED that reaches the count, with the receiver in Accumulating (R133, R134). -/
theorem execFeed_afterFrame {s : State} (b : Byte) (h : s.rx.state = .accumulating)
    (hroom : s.rx.acc.length < 256) (hcount : 1 + s.rx.expectedLength.toNat ≤ (s.rx.acc ++ [b]).length) :
    execFeed b s = .next (s.afterFrame (s.rx.acc ++ [b])) := by
  rw [List.length_append, List.length_singleton] at hcount
  exact execFeed_complete b h hroom (by omega)

/-- A FEED with a result other than Nothing has completed the frame in the buffer (R133, R134). -/
theorem afterFrame_of_result_ne_nothing {b : Byte} {s t : State} (h : execFeed b s = .next t)
    (hr : t.result ≠ some .nothing) : s.rx.acc.length < 256 ∧ t = s.afterFrame (s.rx.acc ++ [b]) := by
  obtain ⟨-, h'⟩ | ⟨-, -, h'⟩ | ⟨-, -, h'⟩ | ⟨-, hroom, -, h'⟩ := execFeed_cases b s <;>
    rw [h'] at h <;> cases h
  · exact absurd rfl hr
  · exact absurd rfl hr
  · exact ⟨hroom, rfl⟩

/-- DECODE of a block that decodes (R165). -/
theorem execDecode_of_deserialize {s : State} {m : Message} (hlen : s.blockPort.length ≤ 256)
    (h : deserialize s.cfg s.blockPort = .ok m) :
    execDecode s = .next (s.setResult (.msg (untransform s.cfg m))) := by
  obtain ⟨hlong, -⟩ | ⟨hshort, -⟩ | ⟨-, m', hm', hdec⟩ := execDecode_cases s
  · omega
  · rw [deserialize_short hshort] at h; cases h
  · obtain rfl := Except.ok.inj (hm'.symm.trans h)
    exact hdec

/-- Settles O11: the first FEED of a frame. -/
theorem feedTakesLengthByte : Obligations.FeedTakesLengthByte :=
  fun b _ h hacc => execFeed_begins_frame b h hacc

/-- Settles O12: the count counts the length byte, so the buffer is still below it. -/
theorem feedAppendsBelowCount : Obligations.FeedAppendsBelowCount := by
  intro b s h hcount
  rw [List.length_append, List.length_singleton] at hcount
  exact execFeed_below b h (by omega)

/-- Settles O13: the completed frame decodes. -/
theorem feedDeliversCompleteFrame : Obligations.FeedDeliversCompleteFrame := by
  intro b s raw h hroom hcount hd
  rw [exec_feed, execFeed_afterFrame b h hroom hcount, State.afterFrame, frameResult_of_deserialize hd]
  rfl

/-- Settles O14: a frame this short leaves a cell free, and the reset receiver takes the next byte as a
length byte (R131). -/
theorem feedReportsShortFrame : Obligations.FeedReportsShortFrame := by
  intro b s h hcount hshort
  have hroom : s.rx.acc.length < 256 := by
    have hH := headerSize_bounds s.cfg
    rw [List.length_append, List.length_singleton] at hshort
    omega
  refine ⟨_, rfl, ?_, fun b' => feedTakesLengthByte b' _ rfl rfl⟩
  rw [exec_feed, execFeed_afterFrame b h hroom hcount, State.afterFrame, frameResult_short hshort]
  rfl

/-- Settles O15: DECODE reads the same bytes, and the buffer with the last byte fits its port. -/
theorem frameCarriesRawAndRecovered : Obligations.FrameCarriesRawAndRecovered := by
  intro b s t raw recovered h hr
  obtain ⟨hroom, rfl⟩ := afterFrame_of_result_ne_nothing h (by simp [hr])
  obtain ⟨hd, rfl⟩ := frameResult_eq_frame_iff.1 (Option.some.inj hr)
  have hlen : (s.rx.acc ++ [b]).length ≤ 256 := by
    rw [List.length_append, List.length_singleton]
    omega
  exact ⟨hd, rfl, rfl, rfl, execDecode_of_deserialize hlen hd, fun hid => untransform_identity hid raw⟩

/-! ### What FEED and RESET write -/

/-- Settles O18: RESET writes the fresh receiver. -/
theorem resetClearsReceiver : Obligations.ResetClearsReceiver :=
  ⟨rfl, execReset_eq⟩

/-- Settles O19: a FEED with a result other than Nothing has completed a frame. -/
theorem completedReceiverIsFresh : Obligations.CompletedReceiverIsFresh := by
  constructor
  · intro b s t r h hr hne
    obtain ⟨-, rfl⟩ := afterFrame_of_result_ne_nothing h (by simpa [hr] using hne)
    rfl
  · intro s t h
    rw [exec_reset, execReset_eq] at h
    cases h
    rfl

/-- Settles O24: a completed operation writes the receiver and the result. -/
theorem receiverOperationsFrame : Obligations.ReceiverOperationsFrame := by
  intro s t h
  have hto : CompletesTo s t := h.elim (fun ⟨_, hfeed⟩ => exec_completesTo hfeed) exec_completesTo
  obtain ⟨rx, r, rfl, -, -⟩ := hto
  rfl

/-! ### The bytes a frame takes -/

/-- A frame that ends before its header does is reported on its last byte (R134, R136). -/
theorem runFeeds_short_frame {s : State} {l : Byte} {bs : List Byte}
    (h : s.rx.state = .awaitingLength) (hacc : s.rx.acc = [])
    (hcount : bs.length + 1 = max 2 (1 + l.toNat)) (hshort : bs.length < s.cfg.headerSize) :
    runFeeds (l :: bs) s = some (List.replicate bs.length .nothing ++ [.error .truncatedFrame],
      { s with rx := Receiver.fresh, result := some (.error .truncatedFrame) }) := by
  have hresult : frameResult s.cfg (l :: bs) = .error .truncatedFrame :=
    frameResult_short (by rw [List.length_cons]; omega)
  rw [runFeeds_complete_frame h hacc hcount, State.afterFrame, hresult]
  rfl

/-- A frame that holds a header is delivered on its last byte (R133, R136). -/
theorem runFeeds_delivered_frame {s : State} {l : Byte} {bs : List Byte}
    (h : s.rx.state = .awaitingLength) (hacc : s.rx.acc = [])
    (hcount : bs.length + 1 = max 2 (1 + l.toNat)) (hlong : s.cfg.headerSize ≤ bs.length) :
    ∃ raw, deserialize s.cfg (l :: bs) = .ok raw ∧
      runFeeds (l :: bs) s = some (List.replicate bs.length .nothing ++ [.frame raw (untransform s.cfg raw)],
        { s with rx := Receiver.fresh, result := some (.frame raw (untransform s.cfg raw)) }) := by
  obtain ⟨raw, hd⟩ := deserialize_of_long (c := s.cfg) (f := l :: bs) (by rw [List.length_cons]; omega)
  refine ⟨raw, hd, ?_⟩
  rw [runFeeds_complete_frame h hacc hcount, State.afterFrame, frameResult_of_deserialize hd]
  rfl

/-- Settles O16: the number of bytes after the length byte decides between the two kinds of frame. -/
theorem lengthBytesBelowAndAboveHeader : Obligations.LengthBytesBelowAndAboveHeader := by
  intro s h hacc
  have hH := headerSize_bounds s.cfg
  refine ⟨fun b => ?_, fun l bs hpos hbelow hlen => ?_, fun l bs habove hlen => ?_⟩
  · exact runFeeds_short_frame h hacc rfl (by rw [List.length_singleton]; omega)
  · rw [← hlen]
    exact runFeeds_short_frame h hacc (by omega) (by omega)
  · rw [← hlen]
    exact runFeeds_delivered_frame h hacc (by omega) (by omega)

/-- Settles O17: the run over the frame and the bytes that follow is the run over the frame, then the
run over those bytes. -/
theorem frameTakesCountedBytes : Obligations.FrameTakesCountedBytes := by
  intro s l bs rest h hacc hcount
  have hrun := runFeeds_complete_frame h hacc hcount
  refine ⟨_, _, frameResult_ne_nothing s.cfg (l :: bs), rfl, hrun, ?_⟩
  rw [runFeeds_append, hrun]
  rfl

end Sys2Proof.Machine
end

section
/-! SUPPORT. The family 42_adapter.md: the byte transforms, the adapter's codec beside the plain one, and
what ENCODE and DECODE answer for each operand. -/

namespace Sys2Proof.Machine

/-! ### DECODE of ENCODE -/

/-- ENCODE of a message whose type is well formed and whose transformed message has a frame (R164). -/
theorem execEncode_of_serialize {s : State} {f : List Byte} (ht : s.msgPort.typeOk s.cfg = true)
    (h : serialize s.cfg (transform s.cfg s.msgPort) = .ok f) :
    execEncode s = .next (s.setResult (.bytes f)) := by
  simp [execEncode, readMessage_ok ht, adapterEncode, h, finish_eq]

/-- Settles O44: the transformed message is well formed and comes back from its frame, and the inverse
transform takes it back to the message. -/
theorem adapterInverse : Obligations.AdapterInverse := by
  refine ⟨fun c b => ⟨decByte_encByte c b, encByte_decByte c b⟩, fun s hm => ?_⟩
  have hm' : (transform s.cfg s.msgPort).wf s.cfg = true := (wf_transform s.cfg s.msgPort).trans hm
  obtain ⟨htype, -⟩ := (wf_iff s.cfg s.msgPort).1 hm
  obtain ⟨l, rest, hs, -, -, hmax⟩ := serialize_wf_length hm'
  have hdec := execDecode_of_deserialize
    (s := { s.setResult (.bytes (l :: rest)) with blockPort := l :: rest })
    (Nat.succ_le_succ hmax) (deserialize_serialize hm' hs)
  refine ⟨_, _, _, execEncode_of_serialize htype hs, rfl, hdec, ?_⟩
  exact congrArg (some <| Result.msg ·) (untransform_transform s.cfg s.msgPort)

/-! ### The byte transforms -/

theorem encByte_identity {c : Config} (h : c.adapter = .identity) (b : Byte) : encByte c b = b := by
  simp [encByte, h]

theorem encByte_additiveShift {c : Config} (h : c.adapter = .additiveShift) (b : Byte) :
    encByte c b = b + c.key := by
  simp [encByte, h]

theorem decByte_additiveShift {c : Config} (h : c.adapter = .additiveShift) (b : Byte) :
    decByte c b = b - c.key := by
  simp [decByte, h]

/-- Where `enc` keeps every byte, so does its inverse. -/
theorem decByte_eq_self {c : Config} (h : ∀ b, encByte c b = b) (b : Byte) : decByte c b = b := by
  simpa only [h] using decByte_encByte c b

/-- Settles O37: 8-bit addition and subtraction wrap modulo 256. -/
theorem byteTransforms : Obligations.ByteTransforms := by
  refine fun c b => ⟨fun h => ⟨encByte_identity h b, decByte_eq_self (encByte_identity h) b⟩, fun h => ?_⟩
  rw [encByte_additiveShift h, decByte_additiveShift h, BitVec.toNat_add, BitVec.toNat_sub]
  have hkey := c.key.isLt
  omega

/-- Settles O38: each lane is mapped on its own, and `byteTransforms` gives its value. -/
theorem messageTransformsByLane : Obligations.MessageTransformsByLane := by
  intro c m
  refine ⟨⟨rfl, rfl, List.length_map ..⟩, ⟨rfl, rfl, List.length_map ..⟩, fun k b hk => ?_⟩
  exact ⟨encByte c b, decByte c b, by simp [hk], by simp [hk], byteTransforms c b⟩

/-! ### The adapter's codec beside the plain one -/

/-- The bytes of a frame before its payload: the length prefix, the type and the index (R62, R63). -/
theorem take_header_of_serialize {c : Config} {m : Message} {f : List Byte} (ht : m.typeOk c = true)
    (hf : serialize c m = .ok f) :
    f.take (1 + c.headerSize) =
      BitVec.ofNat 8 (c.headerSize + m.payload.length) :: (typeField c m ++ indexBytes m.index) := by
  obtain ⟨-, hs⟩ | ⟨-, hs⟩ := serialize_cases c m <;> cases hf.symm.trans hs
  have hlen : c.headerSize = (typeField c m ++ indexBytes m.index).length := by
    have hH := headerSize_bounds c
    rw [List.length_append, typeField_length ht, length_indexBytes]
    omega
  rw [Nat.add_comm, List.take_succ_cons, List.take_left' hlen.symm]

theorem adapterDecode_of_deserialize {c : Config} {f : List Byte} {r : Message}
    (h : deserialize c f = .ok r) : adapterDecode c f = .ok (untransform c r) := by
  simp [adapterDecode, h]

/-- Settles O39: the bytes before the payload depend on the type, the index and the payload's length,
which the transform keeps. -/
theorem headerNeverTransformed : Obligations.HeaderNeverTransformed := by
  refine ⟨fun c m hm => ?_, fun c f r m hr hm => ?_⟩
  · have hm' : (transform c m).wf c = true := (wf_transform c m).trans hm
    obtain ⟨htype, -⟩ := (wf_iff c m).1 hm
    obtain ⟨l, rest, hf, -⟩ := serialize_wf_length hm
    obtain ⟨l', rest', hg, -⟩ := serialize_wf_length hm'
    refine ⟨_, _, hf, hg, ?_⟩
    rw [take_header_of_serialize htype hf, take_header_of_serialize ((typeOk_transform c m).trans htype) hg,
      transform_payload, List.length_map]
    rfl
  · cases hm.symm.trans (adapterDecode_of_deserialize hr)
    exact ⟨rfl, rfl⟩

/-- An adapter whose `enc` keeps every byte keeps every message. -/
theorem transform_eq_self {c : Config} (h : ∀ b, encByte c b = b) (m : Message) : transform c m = m := by
  simp [transform, show encByte c = id from funext h]

/-- An adapter whose `enc` keeps every byte encodes as the codec does (R166). -/
theorem adapterEncode_eq_serialize {c : Config} (h : ∀ b, encByte c b = b) (m : Message) :
    adapterEncode c m = serialize c m := by
  rw [adapterEncode, transform_eq_self h]

/-- An adapter whose `enc` keeps every byte decodes as the codec does (R166). -/
theorem adapterDecode_eq_deserialize {c : Config} (h : ∀ b, encByte c b = b) (f : List Byte) :
    adapterDecode c f = deserialize c f := by
  unfold adapterDecode
  cases deserialize c f with
  | error e => rfl
  | ok m    =>
    have hm : untransform c m = m := by
      simpa only [transform_eq_self h] using untransform_transform c m
    exact congrArg Except.ok hm

/-- Settles O42: `enc` of the Identity adapter keeps every byte, and the codec does not read KEY. -/
theorem identityAdapterIsPlainCodec : Obligations.IdentityAdapterIsPlainCodec := by
  intro c k h
  have hself : ∀ b, encByte { c with key := k } b = b := encByte_identity h
  exact ⟨adapterEncode_eq_serialize hself, adapterDecode_eq_deserialize hself⟩

/-- KEY 0x00 shifts by nothing (R167). -/
theorem encByte_key_zero {c : Config} (h : c.adapter = .additiveShift) (hk : c.key = 0x00) (b : Byte) :
    encByte c b = b := by
  rw [encByte_additiveShift h, hk]
  exact BitVec.add_zero b

/-- Settles O43: with KEY 0x00, as with Identity, the adapter is the plain codec, which does not read
ADAPTER; 0xFF is -1 modulo 256; `enc` and `dec` are each other's inverse. -/
theorem additiveShiftConsequences : Obligations.AdditiveShiftConsequences := by
  refine ⟨fun c h hk => ?_, fun c b h hk => ?_, fun c => ?_⟩
  · have hzero : ∀ b, encByte c b = b := encByte_key_zero h hk
    have hid : ∀ b, encByte { c with adapter := .identity } b = b := encByte_identity rfl
    exact ⟨fun m => (adapterEncode_eq_serialize hzero m).trans (adapterEncode_eq_serialize hid m).symm,
      fun f => (adapterDecode_eq_deserialize hzero f).trans (adapterDecode_eq_deserialize hid f).symm⟩
  · rw [encByte_additiveShift h, hk]
    exact (BitVec.sub_eq_add_neg b 1).symm
  · exact ⟨Function.bijective_iff_has_inverse.2 ⟨decByte c, decByte_encByte c, encByte_decByte c⟩,
      Function.bijective_iff_has_inverse.2 ⟨encByte c, encByte_decByte c, decByte_encByte c⟩⟩

/-! ### ENCODE and DECODE -/

/-- ENCODE refuses what its operand check refuses (R164). -/
theorem execEncode_of_messageRefusal {s : State} {r : Refusal}
    (h : messageRefusal s.cfg s.msgPort = some r) : execEncode s = .refused r := by
  simp [execEncode, readMessage, h]

/-- The messages whose type fits the variant (R27, R28). -/
theorem typeOk_iff (c : Config) (m : Message) :
    m.typeOk c = true ↔
      (c.variant = .typeTagged ∧ ∃ t, m.type = some t ∧ (t ∈ c.knownTypes ∨ t = 0xFF)) ∨
      (c.variant = .indexOnly ∧ m.type = none) := by
  simp only [← isTypeCode_iff]
  refine ⟨typeOk_cases, ?_⟩
  rintro (⟨hv, t, ht, hcode⟩ | ⟨hv, ht⟩)
  · simp [Message.typeOk, hv, ht, hcode]
  · simp [Message.typeOk, hv, ht]

/-- Settles O40: the first three clauses are the cases of `messageRefusal`; in the last the message is
not refused, and H + n decides. -/
theorem encodeOperation : Obligations.EncodeOperation := by
  refine ⟨rfl, fun s => ⟨fun hv ht => ?_, fun hv ht => ?_, fun t hv ht hknown hundef => ?_, fun htype => ?_⟩⟩
  · exact execEncode_of_messageRefusal (by simp [messageRefusal, hv, ht])
  · obtain ⟨t, ht⟩ := Option.ne_none_iff_exists'.1 ht
    exact execEncode_of_messageRefusal (by simp [messageRefusal, hv, ht])
  · have hcode : ¬ s.cfg.isTypeCode t = true :=
      mt (isTypeCode_iff s.cfg t).1 (not_or.2 ⟨hknown, hundef⟩)
    exact execEncode_of_messageRefusal (by simp [messageRefusal, hv, ht, hcode])
  · have hok := (typeOk_iff s.cfg s.msgPort).2 htype
    obtain ⟨hno, -⟩ | ⟨-, hlarge, h⟩ | ⟨-, hfits, h⟩ := execEncode_cases s
    · cases hok.symm.trans hno
    · exact ⟨fun _ => h, fun hfits => absurd hlarge (Nat.not_lt.2 hfits)⟩
    · exact ⟨fun hlarge => absurd hlarge (Nat.not_lt.2 hfits), fun _ => h⟩

/-- Settles O41: the three ranges of N are those of `execDecode_cases`. -/
theorem decodeOperation : Obligations.DecodeOperation := by
  refine ⟨rfl, fun s => ?_⟩
  have hH := headerSize_bounds s.cfg
  obtain ⟨hlong, h⟩ | ⟨hshort, h⟩ | ⟨hmax, r, hr, h⟩ := execDecode_cases s
  · exact ⟨fun _ => h, by omega, by omega⟩
  · exact ⟨by omega, fun _ => h, by omega⟩
  · obtain ⟨-, hlen⟩ := deserialize_ok hr
    exact ⟨by omega, by omega, fun _ _ => ⟨r, hr, h⟩⟩

/-- The first of two outcomes that answer alike, when it is a state, writes the result alone, and the
second writes that result. -/
theorem next_of_answerAlike {s s' t : State} {o o' : Host.Outcome State Fault Refusal}
    (h : AnswerAlike s s' o o') (ho : o = .next t) :
    t = { s with result := t.result } ∧ o' = .next { s' with result := t.result } := by
  obtain ⟨r, rfl, -⟩ | ⟨a, rfl, rfl⟩ := h <;> cases ho
  exact ⟨rfl, rfl⟩

/-- Settles O46: ENCODE and DECODE answer alike in states that agree on the parameters and the operand;
a state agrees with itself. -/
theorem encodeDecodeArePure : Obligations.EncodeDecodeArePure := by
  refine ⟨?_, fun s s' t hc hm h => ?_, fun s s' t hc hb h => ?_⟩
  · rintro s t (h | h)
    · exact (next_of_answerAlike (execEncode_answerAlike rfl rfl) h).1
    · exact (next_of_answerAlike (execDecode_answerAlike rfl rfl) h).1
  · exact (next_of_answerAlike (execEncode_answerAlike hc hm) h).2
  · exact (next_of_answerAlike (execDecode_answerAlike hc hb) h).2

end Sys2Proof.Machine
end

section
/-! SUPPORT. The family 60_exceptions.md: exactly when each operation returns an error, and what an error
or a refusal leaves of the state. -/

namespace Sys2Proof.Machine

/-! ### The cause of each operation -/

/-- A result has the number 0 exactly when it is no error (R201). -/
theorem code_eq_zero_iff (r : Result) : r.code = 0 ↔ ∀ e, r ≠ .error e := by
  cases r with
  | error e => cases e <;> simp [Result.code, Cause.code]
  | nothing | frame | bytes | msg => simp [Result.code]

/-- A completed frame is an error exactly when it does not hold a header (R133, R134, R202). -/
theorem frameResult_eq_error_iff {c : Config} {f : List Byte} {e : Cause} :
    frameResult c f = .error e ↔ e = .truncatedFrame ∧ f.length < c.headerSize + 1 := by
  obtain ⟨hshort, h⟩ | ⟨hlong, raw, -, h⟩ := frameResult_cases c f <;> rw [h]
  · simp [hshort, eq_comm]
  · simp [Nat.not_lt.2 hlong]

/-- FEED returns an error exactly when it completes a frame that does not hold a header (R134, R202). -/
theorem execFeed_result_error_iff {b : Byte} {s t : State} (h : execFeed b s = .next t) (e : Cause) :
    t.result = some (.error e) ↔ e = .truncatedFrame ∧ s.rx.state = .accumulating ∧
      1 + s.rx.expectedLength.toNat ≤ s.rx.acc.length + 1 ∧ s.rx.acc.length + 1 < s.cfg.headerSize + 1 := by
  obtain ⟨-, h'⟩ | ⟨hwait, -, h'⟩ | ⟨-, hbelow, h'⟩ | ⟨hacc, -, hcount, h'⟩ := execFeed_cases b s <;>
    rw [h'] at h <;> cases h
  · simp [hwait]
  · have hincomplete : ¬ 1 + s.rx.expectedLength.toNat ≤ s.rx.acc.length + 1 := by omega
    simp [hincomplete]
  · have hcomplete : 1 + s.rx.expectedLength.toNat ≤ s.rx.acc.length + 1 := by omega
    simp [frameResult_eq_error_iff, hacc, hcomplete]

/-- ENCODE returns an error exactly when H + n does not fit the length prefix (R164, R203). -/
theorem execEncode_result_error_iff {s t : State} (h : execEncode s = .next t) (e : Cause) :
    t.result = some (.error e) ↔
      e = .payloadTooLarge ∧ 255 < s.cfg.headerSize + s.msgPort.payload.length := by
  obtain ⟨-, r, -, h'⟩ | ⟨-, hlarge, h'⟩ | ⟨-, hfits, f, -, h'⟩ := execEncode_cases s <;>
    rw [h'] at h <;> cases h
  · simp [hlarge, eq_comm]
  · simp [Nat.not_lt.2 hfits]

/-- DECODE returns an error exactly on a block that does not hold a header (R165, R202). -/
theorem execDecode_result_error_iff {s t : State} (h : execDecode s = .next t) (e : Cause) :
    t.result = some (.error e) ↔ e = .truncatedFrame ∧ s.blockPort.length < s.cfg.headerSize + 1 := by
  obtain ⟨-, h'⟩ | ⟨hshort, h'⟩ | ⟨-, m, hm, h'⟩ := execDecode_cases s <;> rw [h'] at h <;> cases h
  · simp [hshort, eq_comm]
  · obtain ⟨-, hlen⟩ := deserialize_ok hm
    have hlong : ¬ s.blockPort.length < s.cfg.headerSize + 1 := by omega
    simp [hlong]

/-- Settles O47, operation by operation; RESET writes Nothing. -/
theorem causesAndConditions : Obligations.CausesAndConditions := by
  refine ⟨⟨rfl, rfl, rfl, rfl⟩, code_eq_zero_iff, fun _ _ _ => execFeed_result_error_iff,
    fun s t h e => ?_, fun _ _ => execEncode_result_error_iff, fun _ _ => execDecode_result_error_iff⟩
  rw [exec_reset, execReset_eq] at h
  cases h
  nofun

/-! ### What an error or a refusal leaves of the state -/

/-- Settles O48: a FEED that returns an error has completed a frame, and the reset receiver takes the next
byte as a length byte (R131); ENCODE and DECODE write only the result (R169). -/
theorem errorEffectOnState : Obligations.ErrorEffectOnState := by
  refine ⟨fun b s t e h hr => ?_, fun s t e h hr => ?_⟩
  · obtain ⟨-, rfl⟩ := afterFrame_of_result_ne_nothing h (by simp [hr])
    exact ⟨rfl, fun b' => feedTakesLengthByte b' _ rfl rfl⟩
  · obtain ⟨honly, -⟩ := encodeDecodeArePure
    rw [← hr]
    exact honly s t h

/-- Settles O49: ENCODE and DECODE check the operand before the codec sees it (R164, R165). -/
theorem refusalBeforeError : Obligations.RefusalBeforeError := by
  refine ⟨fun s htype _ => ?_, fun s hlong => (decodeOperation.2 s).1 hlong⟩
  obtain ⟨r, hrefused, -⟩ := readMessage_refused htype
  exact ⟨r, execEncode_of_messageRefusal hrefused⟩

/-! ### Waiting -/

/-- Settles O6: a step with an empty queue waits (R213). -/
theorem idleStepWaits : Obligations.IdleStepWaits := fun _ => step_of_queue_nil

end Sys2Proof.Machine
end

section
/-! SUPPORT. The family 70_reset_and_hazards.md: RESET before a frame, and a KEY that differs between the
two ends of the link. -/

namespace Sys2Proof.Machine

/-! ### RESET, then FEED -/

/-- Settles O23: RESET leaves the fresh receiver (R138), which takes the next byte as a length byte
(R131). -/
theorem resetThenFeedStartsFrame : Obligations.ResetThenFeedStartsFrame :=
  fun b s => ⟨_, execReset_eq s, feedTakesLengthByte b _ rfl rfl⟩

/-! ### A KEY mismatch -/

/-- A byte shifted up by KEY and down by another KEY is shifted by the difference (R161). -/
theorem decByte_encByte_other_key {c : Config} (h : c.adapter = .additiveShift) (k b : Byte) :
    decByte { c with key := k } (encByte c b) = b + (c.key - k) :=
  calc decByte { c with key := k } (encByte c b)
      = encByte c b - k     := decByte_additiveShift (c := { c with key := k }) h _
    _ = b + c.key - k       := by rw [encByte_additiveShift h]
    _ = b + (c.key - k)     := add_sub_assoc b c.key k

/-- A message transformed with KEY and taken back with another KEY keeps its header, and its payload is
shifted by the difference (R162, R239). -/
theorem untransform_transform_other_key {c : Config} (h : c.adapter = .additiveShift) (k : Byte)
    (m : Message) : untransform { c with key := k } (transform c m) =
      { m with payload := m.payload.map (fun b => b + (c.key - k)) } := by
  simp only [untransform, transform, List.map_map, Function.comp_def, decByte_encByte_other_key h]

/-- The codec does not read KEY. -/
theorem deserialize_key (c : Config) (k : Byte) (f : List Byte) :
    deserialize { c with key := k } f = deserialize c f := rfl

/-- Settles O45: the codec, which does not read KEY, gives back the transformed message, and the other
KEY's inverse transform leaves the difference on each payload byte. -/
theorem keyMismatchShiftsPayload : Obligations.KeyMismatchShiftsPayload := by
  intro c k m h hm
  have hm' : (transform c m).wf c = true := (wf_transform c m).trans hm
  obtain ⟨l, rest, hf, -⟩ := serialize_wf_length hm'
  have hd : deserialize { c with key := k } (l :: rest) = .ok (transform c m) :=
    (deserialize_key c k _).trans (deserialize_serialize hm' hf)
  refine ⟨l :: rest, hf, ?_⟩
  rw [adapterDecode_of_deserialize hd, untransform_transform_other_key h]

end Sys2Proof.Machine
end
